-- ==== Sys2Proof/Word.lean ====
section
/-! DEFINITION. The words of the block: input bytes, character codes, symbols and command words.
Every value is an unsigned bit vector with bit 0 least significant (spec/00_scope.md R11, R12). -/

namespace Sys2Proof

/-- An 8-bit value: an input byte, the carry register or a character code (R9, R21, R29). -/
abbrev Byte := BitVec 8

/-- A 5-bit group given to the symbol emitter (R9). -/
abbrev Symbol := BitVec 5

/-- A 10-bit command word `cmd_word[9:0]` (R54). -/
abbrev CmdWord := BitVec 10

/-- The 32-bit status word (R30). -/
abbrev StatusWord := BitVec 32

end Sys2Proof
end

