-- ==== Sys2Proof/Config.lean ====
section
/-! DEFINITION. The parameters of the hardware, all fixed by spec/00_scope.md section 4 and R10.
The spec leaves no point open (spec/92_eei_decisions.md), so there is no free value here. -/

namespace Sys2Proof.Config

/-- OUTQ_DEPTH, the number of entries the output queue has room for (R10, R29). -/
def outqDepth : Nat := 7

end Sys2Proof.Config
end

