-- ==== Sys2Proof/Syntax.lean ====
section
/-! DEFINITION. The commands of the block, one constructor per row of spec/opcode_table.json. -/

namespace Sys2Proof

/-- A legal command. The operand types hold exactly the values the encoding admits (R56 to R58). -/
inductive Instr where
  /-- `CONSUME b`: one input byte, any of 256 values (R56, R65). -/
  | consume (b : Byte)
  /-- `FINALIZE`: end of stream, no operand (R57, R83). -/
  | finalize
  /-- `INIT`: construction; `lower` is LOWER (bit 0), `pad` is PAD (bit 1) (R58, R93). -/
  | init (lower pad : Bool)
  deriving DecidableEq, Repr

end Sys2Proof
end

