-- ==== Sys2Proof/WellFormed.lean ====
section
/-! DEFINITION. Well-formedness: the ranges an operand written as a plain number must lie in
(spec/30_encoding.md R63), and the well-formed commands. -/

namespace Sys2Proof

/-- A `<byte>` of the assembler is a number 0..255 (R63). -/
def byteInRange (n : Nat) : Bool := n < 256

/-- A `.word` of the assembler is a number 0..0x3FF (R63). -/
def wordInRange (w : Nat) : Bool := w < 0x400

/-- The operands of every command are well formed: the byte is a number 0..255, and the two options of
INIT are single bits. The operand TYPES already hold nothing else, so no term is ill formed; the ranges
are checked where a number enters, in the assembler (`byteInRange`, `wordInRange`). -/
def Instr.wf : Instr → Bool
  | .consume b => byteInRange b.toNat
  | .finalize => true
  | .init _ _ => true

end Sys2Proof
end

