-- ==== Sys2Proof/Decode.lean ====
section
/-! DEFINITION. The decoder (spec/30_encoding.md R59, R60) and, after it, the encoder (R54 to R58). -/

namespace Sys2Proof

/-- Why a word is illegal: the three classes of R60. -/
inductive Illegal where
  /-- `op = 0b00`: 256 words. -/
  | opZero
  /-- a FINALIZE word with `arg ≠ 0`: 255 words. -/
  | finalizeArg
  /-- an INIT word with `arg[7:2] ≠ 0`: 252 words. -/
  | initArg
  deriving DecidableEq, Repr

/-- `op = w[9:8]` (R54). -/
def opField (w : CmdWord) : BitVec 2 := w.extractLsb 9 8

/-- `arg = w[7:0]` (R54). -/
def argField (w : CmdWord) : Byte := w.extractLsb 7 0

/-- The decoder of R59, total on the 1024 words. -/
def decode (w : CmdWord) : Except Illegal Instr :=
  if opField w = 0b01#2 then .ok (.consume (argField w))
  else if opField w = 0b10#2 then
    if argField w = 0x00#8 then .ok .finalize else .error .finalizeArg
  else if opField w = 0b11#2 then
    if (argField w).extractLsb 7 2 = 0b000000#6 then
      .ok (.init ((argField w).getLsbD 0) ((argField w).getLsbD 1))
    else .error .initArg
  else .error .opZero

/-- The word `op ++ arg` (R54). -/
def assembleFields (op : BitVec 2) (arg : Byte) : CmdWord := op ++ arg

/-- The word of a command: patterns `01bbbbbbbb`, `1000000000` and `11000000pl` (R56, R57, R58). -/
def encode : Instr → CmdWord
  | .consume b => assembleFields 0b01#2 b
  | .finalize => assembleFields 0b10#2 0x00#8
  | .init lower pad => assembleFields 0b11#2 (0b000000#6 ++ BitVec.ofBool pad ++ BitVec.ofBool lower)

/-- The command word whose bits are those of `w`, `nbits` of them, the bits above being 0. The port is
10 bits wide (R37), so a number of 0x400 or more is no command word. (log entry 11) -/
def tableWord (nbits w : Nat) : Option CmdWord :=
  if w % 2 ^ nbits < 0x400 then some (BitVec.ofNat 10 (w % 2 ^ nbits)) else none

/-- The instruction the decoder reads from an instruction whose bits are `w`. -/
def decodeTableWord (nbits w : Nat) : Option Instr :=
  match tableWord nbits w with
  | some c => (decode c).toOption
  | none => none

end Sys2Proof
end

