-- ==== Sys2Proof/Machine/State.lean ====
section
/-! DEFINITION. The state of the block (spec/10_state.md, spec/70_reset_and_hazards.md R117), the host's side of
its ports, and the reasons a step can stop. -/

namespace Sys2Proof.Machine

/-- `phase`: the number of carried bits, in the order of the 40-bit cycle (R19, R20). The codes 5, 6 and 7
are never held, and the type cannot hold them (R33, I1; log entry 5). -/
inductive Phase where
  | p0 | p3 | p1 | p4 | p2
  deriving DecidableEq, Repr

/-- `life` (R25). The code 0b11 is never held, and the type cannot hold it (R33, I2; log entry 5). -/
inductive Life where
  /-- no encoder constructed since reset -/
  | idle
  /-- a stream is open -/
  | active
  /-- FINALIZE has been accepted -/
  | spent
  deriving DecidableEq, Repr

/-- The cause of a recorded fault (spec/60_exceptions.md section 1). A recorded fault does not stop the block. -/
inductive Cause where
  /-- an illegal word (R99) -/
  | ill
  /-- a legal command out of life-cycle order (R100) -/
  | seq
  deriving DecidableEq, Repr

/-- What the host drives on the block's input ports at one rising edge of `clk` (R37). -/
structure Pins where
  /-- `rst_n`, active low -/
  rstN : Bool
  /-- `cmd_valid` -/
  cmdValid : Bool
  /-- `cmd_word` -/
  cmdWord : CmdWord
  /-- `out_ready` -/
  outReady : Bool
  deriving DecidableEq, Repr

/-- The registers of the block, and two fields of the host's side. -/
structure State where
  /-- `phase` (R19) -/
  phase : Phase
  /-- `carry` (R21, R22) -/
  carry : Byte
  /-- `cfg_lower` (R24) -/
  cfgLower : Bool
  /-- `cfg_pad` (R24) -/
  cfgPad : Bool
  /-- `life` (R25) -/
  life : Life
  /-- `err_ill` (R27) -/
  errIll : Bool
  /-- `err_seq` (R27) -/
  errSeq : Bool
  /-- `ecmd` (R28) -/
  ecmd : CmdWord
  /-- `outq`, oldest entry first (R29) -/
  outq : List Byte
  /-- The model's own: what the host drives at each edge to come, the next edge first (R52; log entry 1). -/
  pins : List Pins
  /-- The model's own: the characters delivered to the sink, oldest first (R41, R47; log entry 3). -/
  sink : List Byte
  deriving DecidableEq, Repr

/-- Why a step stops with a fault. The spec's own faults `Ill` and `Seq` are none of these: they are recorded
and the block goes on (R101). -/
inductive Fault where
  /-- Raised by `commit`, at the end of a CONSUME or FINALIZE whose pushes leave more than OUTQ_DEPTH entries.
  Safe: R80 says that no overflow case exists, and no step from a state of R33 raises it (log entry 4). -/
  | outqOverflow
  deriving DecidableEq, Repr

/-- Why an instruction has no meaning. -/
inductive Refusal where
  /-- Raised by `exec` alone, for a command that has no meaning yet; every command has one, so nothing raises
  it. Safe. -/
  | notModelled (mnemonic : String)
  deriving DecidableEq, Repr

/-- The block right after reset (R117), before the host has driven any further edge. -/
def State.reset : State where
  phase := .p0
  carry := 0x00#8
  cfgLower := false
  cfgPad := false
  life := .idle
  errIll := false
  errSeq := false
  ecmd := 0x000#10
  outq := []
  pins := []
  sink := []

end Sys2Proof.Machine
end

