-- ==== Sys2Proof/Machine/Ops.lean ====
section
/-! DEFINITION. The named operations over the registers and the output queue: the field writes of the spec's
pseudocode (spec/00_scope.md R13), the push (spec/41_symbol_emitter.md R80), fault recording
(spec/60_exceptions.md R101), the drain (spec/20_memory.md R41) and the reset (spec/70_reset_and_hazards.md R116). -/

namespace Sys2Proof.Machine

/-- The 3-bit code of a phase, equal to its value (R19, D15). -/
def Phase.code : Phase → BitVec 3
  | .p0 => 0b000#3
  | .p3 => 0b011#3
  | .p1 => 0b001#3
  | .p4 => 0b100#3
  | .p2 => 0b010#3

/-- The value of a phase: the number of significant carry bits (R19, R22). -/
def Phase.value (p : Phase) : Nat := p.code.toNat

/-- The 2-bit code of a life state (R25). -/
def Life.code : Life → BitVec 2
  | .idle => 0b00#2
  | .active => 0b01#2
  | .spent => 0b10#2

/-- The cause's code in the table of spec/60_exceptions.md section 1 (R99, R100). -/
def Cause.code : Cause → Nat
  | .ill => 1
  | .seq => 2

/-- `qcount`, the number of entries of `outq` (R29). -/
def State.qcount (s : State) : Nat := s.outq.length

/-- `s.phase <- p` -/
def State.setPhase (p : Phase) (s : State) : State := { s with phase := p }

/-- `s.carry <- c` -/
def State.setCarry (c : Byte) (s : State) : State := { s with carry := c }

/-- `s.life <- l` -/
def State.setLife (l : Life) (s : State) : State := { s with life := l }

/-- `s.cfg_lower <- l`, `s.cfg_pad <- p`; only INIT does this (R24). -/
def State.setConfig (lower pad : Bool) (s : State) : State := { s with cfgLower := lower, cfgPad := pad }

/-- Push one character onto the tail of `outq` (R80). -/
def State.push (c : Byte) (s : State) : State := { s with outq := s.outq ++ [c] }

/-- The end of a command that pushes: the queue has room for OUTQ_DEPTH entries (R29). R80 gives no meaning to
a push onto a full queue, since none can occur (log entry 4). -/
def commit (s : State) : Host.Outcome State Fault Refusal :=
  if s.qcount ≤ Config.outqDepth then .next s else .fault .outqOverflow

/-- `raise K(w)` (R101): the first fault since reset stores its word in `ecmd`, and the cause's sticky flag is
set. Nothing else changes, and the block goes on. It is the block's whole exception entry: there is no vector,
no saved program counter and no mode, and there is no return (R106, R107). -/
def State.raiseFault (k : Cause) (w : CmdWord) (s : State) : State :=
  { s with
    ecmd := if s.errIll = false ∧ s.errSeq = false then w else s.ecmd
    errIll := match k with | .ill => true | .seq => s.errIll
    errSeq := match k with | .ill => s.errSeq | .seq => true }

/-- The drain step (R41): the oldest entry leaves `outq` and is delivered to the sink. -/
def State.drain (s : State) : State :=
  match s.outq with
  | [] => s
  | c :: rest => { s with outq := rest, sink := s.sink ++ [c] }

/-- A reset edge (R116): every register takes its reset value, and `outq` is emptied. The host's side is no
state element of the block: the edges to come and the characters already delivered stay. -/
def State.resetEdge (s : State) : State := { State.reset with pins := s.pins, sink := s.sink }

end Sys2Proof.Machine
end

