-- ==== Sys2Proof/Machine/Emitter.lean ====
section
/-! DEFINITION. The 5-bit symbol emitter and the pad emitter (spec/41_symbol_emitter.md). -/

namespace Sys2Proof.Machine

/-- The upper-case column of the alphabet table (R76): `A`-`Z`, then `2`-`7`. -/
def alphabetRom : List Byte :=
  [0x41#8, 0x42#8, 0x43#8, 0x44#8, 0x45#8, 0x46#8, 0x47#8, 0x48#8] ++
  [0x49#8, 0x4A#8, 0x4B#8, 0x4C#8, 0x4D#8, 0x4E#8, 0x4F#8, 0x50#8] ++
  [0x51#8, 0x52#8, 0x53#8, 0x54#8, 0x55#8, 0x56#8, 0x57#8, 0x58#8] ++
  [0x59#8, 0x5A#8, 0x32#8, 0x33#8, 0x34#8, 0x35#8, 0x36#8, 0x37#8]

/-- `UPPER(v)`, the upper-case code of a 5-bit value (R75, R76). -/
def upper (v : Symbol) : Byte := alphabetRom[v.toNat]'v.isLt

/-- The character of a 5-bit value under the case policy: a letter is lower-cased after lookup, a digit is
not (R77). -/
def symbolChar (lower : Bool) (v : Symbol) : Byte :=
  if lower = true ∧ v.toNat ≤ 25 then upper v + 0x20#8 else upper v

/-- The pad character `=` (R76). -/
def padChar : Byte := 0x3D#8

/-- `Emit5(v)` (R78): push the character of `v` under the configured case. -/
def State.emit5 (v : Symbol) (s : State) : State := s.push (symbolChar s.cfgLower v)

/-- `Pad(n)` (R79): push `=` n times. -/
def State.pad : Nat → State → State
  | 0, s => s
  | n + 1, s => (s.push padChar).pad n

/-- `if s.cfg_pad = 1 then Pad(n)` (R85 to R88). -/
def State.padIfOn (n : Nat) (s : State) : State := if s.cfgPad = true then s.pad n else s

end Sys2Proof.Machine
end

