-- ==== Sys2Proof/Machine/Operands.lean ====
section
/-! DEFINITION. The operand forms: the significant carry bits of each phase (spec/10_state.md R22) and zero
extension (spec/00_scope.md R12). A byte's fields are read with `BitVec.extractLsb hi lo`, the spec's `b[hi:lo]`. -/

namespace Sys2Proof.Machine

/-- `zext_8(v)` (R12). -/
def zext8 {n : Nat} (v : BitVec n) : Byte := v.setWidth 8

/-- `carry[0]`, the significant bit of phase 1 (R22). -/
def carry1 (c : Byte) : BitVec 1 := c.extractLsb 0 0

/-- `carry[1:0]`, the significant bits of phase 2 (R22). -/
def carry2 (c : Byte) : BitVec 2 := c.extractLsb 1 0

/-- `carry[2:0]`, the significant bits of phase 3 (R22). -/
def carry3 (c : Byte) : BitVec 3 := c.extractLsb 2 0

/-- `carry[3:0]`, the significant bits of phase 4 (R22). -/
def carry4 (c : Byte) : BitVec 4 := c.extractLsb 3 0

end Sys2Proof.Machine
end

