-- ==== Sys2Proof/Machine/Finalizer.lean ====
section
/-! DEFINITION. The padding finalizer: FINALIZE and its five phase cases (spec/42_finalizer.md). -/

namespace Sys2Proof.Machine

/-- FIN_P0 (R84): no push. -/
def finP0 (s : State) : State := s

/-- FIN_P3 (R85). -/
def finP3 (s : State) : State := (s.emit5 (carry3 s.carry ++ 0b00#2)).padIfOn 6

/-- FIN_P1 (R86). -/
def finP1 (s : State) : State := (s.emit5 (carry1 s.carry ++ 0b0000#4)).padIfOn 4

/-- FIN_P4 (R87). -/
def finP4 (s : State) : State := (s.emit5 (carry4 s.carry ++ 0b0#1)).padIfOn 3

/-- FIN_P2 (R88). -/
def finP2 (s : State) : State := (s.emit5 (carry2 s.carry ++ 0b000#3)).padIfOn 1

/-- The case of FINALIZE that the phase selects (R83). -/
def finalizeCase (s : State) : State :=
  match s.phase with
  | .p0 => finP0 s
  | .p3 => finP3 s
  | .p1 => finP1 s
  | .p4 => finP4 s
  | .p2 => finP2 s

/-- FINALIZE (R83): refused as a `Seq` fault outside a stream (R100). -/
def execFinalize (s : State) : Host.Outcome State Fault Refusal :=
  if s.life = .active then commit ((((finalizeCase s).setPhase .p0).setCarry 0x00#8).setLife .spent)
  else .next (s.raiseFault .seq (encode .finalize))

end Sys2Proof.Machine
end

