-- ==== Sys2Proof/Machine/Lifecycle.lean ====
section
/-! DEFINITION. The life cycle: INIT and the illegal words (spec/43_lifecycle_control.md). -/

namespace Sys2Proof.Machine

/-- INIT (R93): refused as a `Seq` fault while a stream is open (R100). It pushes nothing and clears no fault. -/
def execInit (lower pad : Bool) (s : State) : Host.Outcome State Fault Refusal :=
  if s.life = .active then .next (s.raiseFault .seq (encode (.init lower pad)))
  else .next ((((s.setConfig lower pad).setPhase .p0).setCarry 0x00#8).setLife .active)

/-- ILLEGAL (R94): an illegal word raises `Ill` in every life state (R99). -/
def execIllegal (w : CmdWord) (s : State) : Host.Outcome State Fault Refusal :=
  .next (s.raiseFault .ill w)

end Sys2Proof.Machine
end

