-- ==== Sys2Proof/Machine/Regrouper.lean ====
section
/-! DEFINITION. The bit-regrouper: CONSUME and its five phase cases (spec/40_regrouper.md). -/

namespace Sys2Proof.Machine

/-- CONS_P0 (R66). -/
def consP0 (b : Byte) (s : State) : State :=
  ((s.emit5 (b.extractLsb 7 3)).setCarry (zext8 (b.extractLsb 2 0))).setPhase .p3

/-- CONS_P3 (R67): symbol A, then symbol B. -/
def consP3 (b : Byte) (s : State) : State :=
  (((s.emit5 (carry3 s.carry ++ b.extractLsb 7 6)).emit5 (b.extractLsb 5 1)).setCarry
    (zext8 (b.extractLsb 0 0))).setPhase .p1

/-- CONS_P1 (R68). -/
def consP1 (b : Byte) (s : State) : State :=
  ((s.emit5 (carry1 s.carry ++ b.extractLsb 7 4)).setCarry (zext8 (b.extractLsb 3 0))).setPhase .p4

/-- CONS_P4 (R69): symbol A, then symbol B. -/
def consP4 (b : Byte) (s : State) : State :=
  (((s.emit5 (carry4 s.carry ++ b.extractLsb 7 7)).emit5 (b.extractLsb 6 2)).setCarry
    (zext8 (b.extractLsb 1 0))).setPhase .p2

/-- CONS_P2 (R70): symbol A, then symbol B; no carry is left. -/
def consP2 (b : Byte) (s : State) : State :=
  (((s.emit5 (carry2 s.carry ++ b.extractLsb 7 5)).emit5 (b.extractLsb 4 0)).setCarry 0x00#8).setPhase .p0

/-- The case of CONSUME that the phase selects (R65). -/
def consumeCase (b : Byte) (s : State) : State :=
  match s.phase with
  | .p0 => consP0 b s
  | .p3 => consP3 b s
  | .p1 => consP1 b s
  | .p4 => consP4 b s
  | .p2 => consP2 b s

/-- CONSUME (R65): refused as a `Seq` fault outside a stream (R100), with the accepted word recorded; the word
of a legal command is its encoding (log entry 6). -/
def execConsume (b : Byte) (s : State) : Host.Outcome State Fault Refusal :=
  if s.life = .active then commit (consumeCase b s)
  else .next (s.raiseFault .seq (encode (.consume b)))

end Sys2Proof.Machine
end

