-- ==== Sys2Proof/Machine/Dispatch.lean ====
section
/-! DEFINITION. One arm per command (spec/30_encoding.md R59). -/

namespace Sys2Proof.Machine

def exec (i : Instr) (s : State) : Host.Outcome State Fault Refusal :=
  match i with
  | .consume b => Sys2Proof.Machine.execConsume b s
  | .finalize => Sys2Proof.Machine.execFinalize s
  | .init lower pad => Sys2Proof.Machine.execInit lower pad s

end Sys2Proof.Machine
end

