-- ==== Sys2Proof/Machine/Flags.lean ====
section
/-! DEFINITION. The flags (spec/10_state.md R26, R27) and the status word (R30). -/

namespace Sys2Proof.Machine

/-- DONE: `life = SPENT` and `qcount = 0` (R30). -/
def State.done (s : State) : Bool := s.life == .spent && s.qcount == 0

/-- No fault has been recorded: both sticky flags are 0 (R27, R109). -/
def State.faultFree (s : State) : Bool := !s.errIll && !s.errSeq

/-- `status[31:0]`, from bit 31 down to bit 0 (R30): reserved, ECMD, reserved, QCOUNT, reserved, ERR_SEQ,
ERR_ILL, DONE, CFG_PAD, CFG_LOWER, LIFE, PHASE. The reserved bits are hardwired 0. -/
def State.status (s : State) : StatusWord :=
  0#6 ++ s.ecmd ++ 0#1 ++ BitVec.ofNat 3 s.qcount ++ 0#2 ++ BitVec.ofBool s.errSeq ++ BitVec.ofBool s.errIll ++
    BitVec.ofBool s.done ++ BitVec.ofBool s.cfgPad ++ BitVec.ofBool s.cfgLower ++ s.life.code ++ s.phase.code

end Sys2Proof.Machine
end

