-- ==== Sys2Proof/Machine/Ports.lean ====
section
/-! DEFINITION. The output ports, functions of the registers and of `rst_n` only (spec/20_memory.md R37, R38).
`status` is in Machine/Flags.lean. -/

namespace Sys2Proof.Machine

/-- `cmd_ready = (rst_n = 1) and (qcount = 0)` (R39). -/
def State.cmdReady (s : State) (rstN : Bool) : Bool := rstN && s.qcount == 0

/-- `out_valid = (qcount ≠ 0)` (R41). -/
def State.outValid (s : State) : Bool := s.qcount != 0

/-- `out_char`: the oldest entry of `outq`, and 0x00 while `out_valid = 0` (R41). -/
def State.outChar (s : State) : Byte :=
  match s.outq with
  | [] => 0x00#8
  | c :: _ => c

end Sys2Proof.Machine
end

