-- ==== Sys2Proof/Machine/Clock.lean ====
section
/-! DEFINITION. One rising edge of `clk`: reset, accept, drain or nothing (spec/20_memory.md R40 to R42,
spec/60_exceptions.md R103, spec/70_reset_and_hazards.md R116). -/

namespace Sys2Proof.Machine

/-- The accept step (R40): the rule the decoded word selects (R59), as one atomic step. -/
def accept (w : CmdWord) (s : State) : Host.Outcome State Fault Refusal :=
  match decode w with
  | .ok i => exec i s
  | .error _ => execIllegal w s

/-- The edge's condition for an accept (R40). -/
def accepts (e : Pins) (s : State) : Bool := e.cmdValid && s.cmdReady e.rstN

/-- The edge's condition for a drain (R41). -/
def drains (e : Pins) (s : State) : Bool := e.rstN && s.outValid && e.outReady

/-- One rising edge with the input ports at `e`. Reset wins over both steps (R103); an accept and a drain never
share an edge (R42). -/
def clockEdge (e : Pins) (s : State) : Host.Outcome State Fault Refusal :=
  if e.rstN = false then .next s.resetEdge
  else if accepts e s = true then accept e.cmdWord s
  else if drains e s = true then .next s.drain
  else .next s

/-- With no further edge the block holds its state: it changes nothing between edges (R115; log entry 1). -/
def edgeOrHold (s : State) : Host.Outcome State Fault Refusal :=
  match s.pins with
  | [] => .next s
  | e :: rest => clockEdge e { s with pins := rest }

/-- The edge at which a host offers the word `w`, or at which it offers nothing where `w` is no command word. -/
def offerEdge : Option CmdWord → Pins
  | some w => { rstN := true, cmdValid := true, cmdWord := w, outReady := true }
  | none => { rstN := true, cmdValid := false, cmdWord := 0#10, outReady := true }

/-- `s` with the word `w` offered at the very next edge. A command is accepted only when the characters of the
previous one have left (R39), so the queue's characters are delivered first (log entry 2). -/
def offerNext (w : Option CmdWord) (s : State) : State :=
  { s with pins := offerEdge w :: s.pins, outq := [], sink := s.sink ++ s.outq }

end Sys2Proof.Machine
end

