-- ==== Sys2Proof/Machine/Step.lean ====
section
/-! DEFINITION. One step of the machine: one rising edge of `clk` (spec/00_scope.md R14, spec/20_memory.md R38). -/

namespace Sys2Proof.Machine

/-- One rising edge with the input ports as the host drives them next. -/
def step (s : State) : Host.Outcome State Fault Refusal := edgeOrHold s

/-- `s` with the command whose bits are `w` offered by the host at the very next edge. (log entry 2) -/
def State.withFetchWord (s : State) (nbits w : Nat) : State := offerNext (tableWord nbits w) s

end Sys2Proof.Machine
end

