-- ==== Sys2Proof/Machine/Assembler.lean ====
section
/-! DEFINITION. The assembler's text (spec/30_encoding.md R63) and its pseudo-instructions (R64). Text is a list of
characters, one command per line. -/

namespace Sys2Proof.Machine

/-- One line of assembler source: the four forms of R63 and the two pseudo-instructions of R64. -/
inductive AsmLine where
  | init (lower pad : Bool)
  | consume (byte : Nat)
  | finalize
  | word (w : Nat)
  | bytes (bs : List Nat)
  | stream (lower pad : Bool) (bs : List Nat)
  deriving DecidableEq, Repr

/-- The operand checks of R63, and the `n ≥ 1` of BYTES (R64). -/
def AsmLine.wf : AsmLine → Bool
  | .init _ _ => true
  | .consume n => byteInRange n
  | .finalize => true
  | .word w => wordInRange w
  | .bytes bs => !bs.isEmpty && bs.all byteInRange
  | .stream _ _ bs => bs.all byteInRange

/-- The CONSUME word of a byte written as a number (R63). -/
def consumeWord (n : Nat) : CmdWord := encode (.consume (BitVec.ofNat 8 n))

/-- The words a well-formed line stands for (R63, R64). -/
def AsmLine.words : AsmLine → List CmdWord
  | .init lower pad => [encode (.init lower pad)]
  | .consume n => [consumeWord n]
  | .finalize => [encode .finalize]
  | .word w => [BitVec.ofNat 10 w]
  | .bytes bs => bs.map consumeWord
  | .stream lower pad bs => encode (.init lower pad) :: bs.map consumeWord ++ [encode .finalize]

/-- The assembler refuses an operand out of range (R63). -/
def AsmLine.assemble (l : AsmLine) : Option (List CmdWord) := if l.wf then some l.words else none

/-- A piece of a line's text: a comma, or a run of other visible characters. -/
inductive Token where
  | comma
  | atom (cs : List Char)
  deriving DecidableEq, Repr

/-- The characters between tokens (log entry 10). -/
def isBlank (c : Char) : Bool := c == ' ' || c == '\t' || c == '\r'

/-- Ends the run of characters read so far, held in reverse. -/
def flushAtom (run : List Char) (rest : List Token) : List Token :=
  if run.isEmpty then rest else .atom run.reverse :: rest

/-- The tokens of a line, up to a `;`, which starts a comment (R63); `run` is the atom being read, in reverse. -/
def tokens : List Char → List Char → List Token
  | run, [] => flushAtom run []
  | run, c :: cs =>
    if c == ';' then flushAtom run []
    else if c == ',' then flushAtom run (.comma :: tokens [] cs)
    else if isBlank c then flushAtom run (tokens [] cs)
    else tokens (c :: run) cs

/-- The value of a decimal digit. -/
def decimalDigit (c : Char) : Option Nat :=
  if '0'.toNat ≤ c.toNat ∧ c.toNat ≤ '9'.toNat then some (c.toNat - '0'.toNat) else none

/-- The value of a hexadecimal digit, in either case. -/
def hexDigit (c : Char) : Option Nat :=
  if 'a'.toNat ≤ c.toLower.toNat ∧ c.toLower.toNat ≤ 'f'.toNat then some (c.toLower.toNat - 'a'.toNat + 10)
  else decimalDigit c

/-- The number a list of digits stands for, continuing from `acc`. -/
def digits (base : Nat) (digit : Char → Option Nat) : Nat → List Char → Option Nat
  | acc, [] => some acc
  | acc, c :: cs =>
    match digit c with
    | some d => digits base digit (acc * base + d) cs
    | none => none

/-- A number in decimal or in `0x` hexadecimal (R63). -/
def number : List Char → Option Nat
  | '0' :: 'x' :: c :: cs => digits 16 hexDigit 0 (c :: cs)
  | c :: cs => digits 10 decimalDigit 0 (c :: cs)
  | [] => none

/-- `, b, ..., b`: the rest of a byte list, each number after a comma. -/
def moreNumbers : List Token → Option (List Nat)
  | [] => some []
  | .comma :: .atom a :: rest =>
    match number a, moreNumbers rest with
    | some n, some ns => some (n :: ns)
    | _, _ => none
  | _ => none

/-- `b, ..., b`: a byte list of at least one number. -/
def numbers : List Token → Option (List Nat)
  | .atom a :: rest =>
    match number a, moreNumbers rest with
    | some n, some ns => some (n :: ns)
    | _, _ => none
  | _ => none

/-- Mnemonics and keywords are case-insensitive (R63). -/
def keyword (cs : List Char) (k : String) : Bool := cs.map Char.toLower == k.toList

/-- `<case>` ∈ {`upper`, `lower`}; true is `lower` (R63). -/
def caseOption (cs : List Char) : Option Bool :=
  if keyword cs "lower" then some true else if keyword cs "upper" then some false else none

/-- `<pad>` ∈ {`pad`, `nopad`}; true is `pad` (R63). -/
def padOption (cs : List Char) : Option Bool :=
  if keyword cs "pad" then some true else if keyword cs "nopad" then some false else none

/-- The operands of INIT and STREAM: `<case>, <pad>`, with what follows. -/
def options : List Token → Option (Bool × Bool × List Token)
  | .atom c :: .comma :: .atom p :: rest =>
    match caseOption c, padOption p with
    | some lower, some pad => some (lower, pad, rest)
    | _, _ => none
  | _ => none

/-- The line a mnemonic and its operand tokens make (R63, R64). -/
def parseCommand (m : List Char) (ops : List Token) : Option AsmLine :=
  if keyword m "init" then
    match options ops with
    | some (lower, pad, []) => some (.init lower pad)
    | _ => none
  else if keyword m "consume" then
    match numbers ops with
    | some [n] => some (.consume n)
    | _ => none
  else if keyword m "finalize" then
    match ops with
    | [] => some .finalize
    | _ => none
  else if keyword m ".word" then
    match numbers ops with
    | some [n] => some (.word n)
    | _ => none
  else if keyword m "bytes" then (numbers ops).map .bytes
  else if keyword m "stream" then
    match options ops with
    | some (lower, pad, rest) => (moreNumbers rest).map (.stream lower pad)
    | none => none
  else none

/-- The words one line of text assembles to; `none` is the assembler's refusal. A line with no token, blank or
only a comment, gives no words (log entry 10). -/
def assembleLine (text : List Char) : Option (List CmdWord) :=
  match tokens [] text with
  | [] => some []
  | .comma :: _ => none
  | .atom m :: ops =>
    match parseCommand m ops with
    | some l => l.assemble
    | none => none

/-- The words of a program, one command per line (R63). -/
def assembleProgram : List (List Char) → Option (List CmdWord)
  | [] => some []
  | line :: lines =>
    match assembleLine line, assembleProgram lines with
    | some ws, some rest => some (ws ++ rest)
    | _, _ => none

end Sys2Proof.Machine
end

