-- ==== Sys2Proof/Safety.lean ====
section
/-! DEFINITION. The terms claims are made in: the invariants of spec/10_state.md R33, the runs of the machine and
what they accepted, and the Base32 text of a byte string stated on bits, without the phase machine. -/

namespace Sys2Proof.Machine

/-! ### Invariants -/

/-- Invariant 2 of R33: `carry[7:phase] = 0`. -/
abbrev CarryClear (s : State) : Prop := s.carry.toNat < 2 ^ s.phase.value

/-- Invariant 3 of R33: if `life ≠ ACTIVE`, then `phase = 0` and `carry = 0`. -/
abbrev IdleClear (s : State) : Prop := s.life ≠ .active → s.phase = .p0 ∧ s.carry = 0x00#8

/-- Invariant 5 of R33: `qcount ≤ 7`. -/
abbrev QueueFits (s : State) : Prop := s.qcount ≤ Config.outqDepth

/-- Invariant 6 of R33: if `err_ill = 0` and `err_seq = 0`, then `ecmd = 0`. -/
abbrev RecordClear (s : State) : Prop := s.errIll = false → s.errSeq = false → s.ecmd = 0x000#10

/-- The invariants of R33. Invariants 1 and 4 are the types of `phase` and `life`. -/
abbrev Inv (s : State) : Prop := CarryClear s ∧ IdleClear s ∧ QueueFits s ∧ RecordClear s

/-- The codes R81 allows: digits and `=`, and the letters of the configured case. -/
def outputCode (lower : Bool) (c : Byte) : Bool :=
  (if lower = true then 0x61 ≤ c.toNat && c.toNat ≤ 0x7A else 0x41 ≤ c.toNat && c.toNat ≤ 0x5A) ||
    (0x32 ≤ c.toNat && c.toNat ≤ 0x37) || c.toNat == 0x3D

/-- Every queued character is one that R81 allows. -/
abbrev OutputCodes (s : State) : Prop := ∀ c ∈ s.outq, outputCode s.cfgLower c = true

/-! ### Commands and runs -/

/-- The `match` and `mask` of a command's row in the opcode map (spec/30_encoding.md section 4). -/
def opcodeRow : Instr → CmdWord × CmdWord
  | .consume _ => (0x100#10, 0x300#10)
  | .finalize => (0x200#10, 0x3FF#10)
  | .init _ _ => (0x300#10, 0x3FC#10)

/-- A legal command that the life state admits (R100): CONSUME and FINALIZE in a stream, INIT outside one. -/
def lifeAdmits : Life → Instr → Bool
  | .active, .consume _ => true
  | .active, .finalize => true
  | .active, .init _ _ => false
  | _, .consume _ => false
  | _, .finalize => false
  | _, .init _ _ => true

/-- The characters the block has sent or holds ready to send, oldest first. -/
def State.emitted (s : State) : List Byte := s.sink ++ s.outq

/-- `n` steps, stopping at the first fault or refusal. -/
def stepN : Nat → State → Host.Outcome State Fault Refusal
  | 0, s => .next s
  | n + 1, s =>
    match step s with
    | .next s' => stepN n s'
    | .fault r => .fault r
    | .refused r => .refused r

/-- The word the next step accepts, if it accepts one (R40). -/
def acceptedNow (s : State) : Option CmdWord :=
  match s.pins with
  | [] => none
  | e :: _ => if accepts e s = true then some e.cmdWord else none

/-- The command the next step carries out: it accepts the command's word, and the life state admits it. An illegal
word and a refused command are none. -/
def effectiveNow (s : State) : Option Instr :=
  match acceptedNow s with
  | none => none
  | some w =>
    match decode w with
    | .ok i => if lifeAdmits s.life i = true then some i else none
    | .error _ => none

/-- The commands `n` steps carry out, in order. -/
def effective : Nat → State → List Instr
  | 0, _ => []
  | n + 1, s =>
    (effectiveNow s).toList ++
      match step s with
      | .next s' => effective n s'
      | .fault _ => []
      | .refused _ => []

/-- None of the next `n` edges is a reset edge. -/
abbrev NoResetIn (n : Nat) (s : State) : Prop := ∀ e ∈ s.pins.take n, e.rstN = true

/-- The characters the next step pushes onto the queue. -/
def pushedNow (s : State) : List Byte :=
  match acceptedNow s, step s with
  | some _, .next s' => s'.outq.drop s.outq.length
  | _, _ => []

/-- The characters `n` steps push, in order of acceptance. -/
def pushed : Nat → State → List Byte
  | 0, _ => []
  | n + 1, s =>
    pushedNow s ++
      match step s with
      | .next s' => pushed n s'
      | .fault _ => []
      | .refused _ => []

/-- Two states that differ at most in the fault record `err_ill`, `err_seq`, `ecmd`. -/
def SameButRecord (s t : State) : Prop :=
  t = { s with errIll := t.errIll, errSeq := t.errSeq, ecmd := t.ecmd }

/-! ### Base32 on bits -/

/-- The bits of a value, most significant first (R43). -/
def msbFirst {n : Nat} (v : BitVec n) : List Bool := (List.range n).map fun i => v.getMsbD i

/-- `X = x0 ++ x1 ++ ...`, the bits of a byte string (R72). -/
def streamBits (bs : List Byte) : List Bool := bs.flatMap msbFirst

/-- The number whose bits, most significant first, are `bits`. -/
def bitsValue (bits : List Bool) : Nat := bits.foldl (fun acc b => 2 * acc + b.toNat) 0

/-- The whole 5-bit groups of a bit string, in order. -/
def groups : List Bool → List Symbol
  | b4 :: b3 :: b2 :: b1 :: b0 :: rest => BitVec.ofNat 5 (bitsValue [b4, b3, b2, b1, b0]) :: groups rest
  | _ => []

/-- The bits left after the whole 5-bit groups. -/
def leftover : List Bool → List Bool
  | _ :: _ :: _ :: _ :: _ :: rest => leftover rest
  | short => short

/-- A bit string, zero-filled to the next multiple of 5 bits (R91). -/
def zeroFill (bits : List Bool) : List Bool := bits ++ List.replicate ((5 - bits.length % 5) % 5) false

/-- A text, filled with `=` to the next multiple of 8 characters (spec/00_scope.md R16, padding). -/
def padFill (text : List Byte) : List Byte := text ++ List.replicate ((8 - text.length % 8) % 8) padChar

/-- The Base32 text of a byte string. -/
def base32 (lower pad : Bool) (bs : List Byte) : List Byte :=
  let text := (groups (zeroFill (streamBits bs))).map (symbolChar lower)
  if pad = true then padFill text else text

/-- The significant bits of `carry`, most significant first (R22). -/
def carryBits (s : State) : List Bool := (msbFirst s.carry).drop (8 - s.phase.value)

/-- The upper-case form of a character; only letters change (R77, R82). -/
def upperForm (c : Byte) : Byte := if 0x61 ≤ c.toNat ∧ c.toNat ≤ 0x7A then c - 0x20#8 else c

/-! ### One whole stream -/

/-- One stream before its FINALIZE: INIT, then one CONSUME per byte (R119). -/
def openStream (lower pad : Bool) (bs : List Byte) : List Instr := .init lower pad :: bs.map .consume

/-- One whole stream: INIT, one CONSUME per byte, FINALIZE (R64, R119). -/
def wholeStream (lower pad : Bool) (bs : List Byte) : List Instr := openStream lower pad bs ++ [.finalize]

/-- An edge that offers the command `i`, with the sink ready. -/
def offer (i : Instr) : Pins := offerEdge (some (encode i))

/-- `n` edges that offer nothing, with the sink ready. -/
def drainEdges (n : Nat) : List Pins := List.replicate n (offerEdge none)

/-- The number of characters CONSUME pushes in the k-th place of the 40-bit cycle (R71). -/
def cycleCount (k : Nat) : Nat :=
  match k % 5 with
  | 0 => 1
  | 1 => 2
  | 2 => 1
  | _ => 2

/-- The edges that feed the bytes from place `k` of the stream on, each offered as soon as the characters of the
command before it have drained. -/
def consumeEdges : Nat → List Byte → List Pins
  | _, [] => []
  | k, b :: bs => offer (.consume b) :: drainEdges (cycleCount k) ++ consumeEdges (k + 1) bs

/-- The edges of one whole stream at full speed with a sink that is always ready (R127). -/
def streamEdges (lower pad : Bool) (bs : List Byte) : List Pins :=
  offer (.init lower pad) :: consumeEdges 0 bs ++
    offer .finalize :: drainEdges ((base32 lower pad bs).length - 8 * bs.length / 5)

end Sys2Proof.Machine
end

