-- ==== Sys2Proof/Certificates/Slice0/Obligations.lean ====
section
/-! DEFINITION. The statements for the provers. Each follows the numbered rules of spec/ its docstring names. -/

open Sys2Proof Sys2Proof.Machine

/-! ### Encoding -/

/-- Words written out bit by bit from spec/30_encoding.md R56 to R58 and R60, and the outcome of each. -/
def Obligations.WrittenOutWordsDecode : Prop :=
  decode 0b0110100101#10 = .ok (.consume 0xA5#8) ∧
  decode 0b0100000001#10 = .ok (.consume 0x01#8) ∧
  decode 0b1000000000#10 = .ok .finalize ∧
  decode 0b1100000001#10 = .ok (.init true false) ∧
  decode 0b1100000010#10 = .ok (.init false true) ∧
  decode 0b0010100101#10 = .error .opZero ∧
  decode 0b1000000001#10 = .error .finalizeArg ∧
  decode 0b1100000100#10 = .error .initArg

/-- R54 to R59: no bit of an encoding is dropped, and a legal word has one meaning. -/
def Obligations.DecodeAndEncodeAgree : Prop :=
  (∀ i : Instr, i.wf = true → decode (encode i) = .ok i) ∧
  (∀ (w : CmdWord) (i : Instr), decode w = .ok i → i.wf = true ∧ encode i = w)

/-- R59 with the masks of the opcode map: a word that matches a row is that row's command, with the fields the row
names; every other word is illegal; and an accept runs the rule of the decoded outcome. -/
def Obligations.DecodeFollowsTheOpcodeMap : Prop :=
  ∀ w : CmdWord,
    (w &&& 0x300#10 = 0x100#10 → decode w = .ok (.consume (w.setWidth 8))) ∧
    (w &&& 0x3FF#10 = 0x200#10 → decode w = .ok .finalize) ∧
    (w &&& 0x3FC#10 = 0x300#10 → decode w = .ok (.init (w.getLsbD 0) (w.getLsbD 1))) ∧
    (w &&& 0x300#10 ≠ 0x100#10 → w &&& 0x3FF#10 ≠ 0x200#10 → w &&& 0x3FC#10 ≠ 0x300#10 →
      ∃ r, decode w = .error r) ∧
    (∀ (i : Instr) (s : State), decode w = .ok i → accept w s = exec i s) ∧
    (∀ (r : Illegal) (s : State), decode w = .error r → accept w s = .next (s.raiseFault .ill w))

/-- R60: how many words are illegal in each class, and how many are legal. -/
def Obligations.IllegalWordCounts : Prop :=
  let count := fun p : Except Illegal Instr → Bool =>
    ((List.range 1024).filter fun n => p (decode (BitVec.ofNat 10 n))).length
  count (fun d => d == .error .opZero) = 256 ∧
  count (fun d => d == .error .finalizeArg) = 255 ∧
  count (fun d => d == .error .initArg) = 252 ∧
  count (fun d => d.isOk) = 261

/-! ### Reset and status -/

/-- The reset values of R117's table; the value of `status` is one the spec marks as derived from the other rows. -/
def Obligations.ResetStateHoldsTheResetValues : Prop :=
  State.reset.phase.code = 0#3 ∧ State.reset.carry = 0x00#8 ∧ State.reset.cfgLower = false ∧
  State.reset.cfgPad = false ∧ State.reset.life = .idle ∧ State.reset.life.code = 0b00#2 ∧
  State.reset.errIll = false ∧ State.reset.errSeq = false ∧ State.reset.ecmd = 0x000#10 ∧
  State.reset.outq = [] ∧ State.reset.qcount = 0 ∧ State.reset.status = 0x00000000#32

/-- R116: at an edge with `rst_n = 0`, whatever the other ports hold, every register takes its reset value, no
command is accepted and no character is delivered; `cmd_ready` is 0 while `rst_n = 0`, and `out_valid` is 0 after
the edge. -/
def Obligations.ResetEdgeRestoresEveryRegister : Prop :=
  (∀ (s : State) (e : Pins) (rest : List Pins), s.pins = e :: rest → e.rstN = false →
    step s = .next { State.reset with pins := rest, sink := s.sink }) ∧
  (∀ s : State, s.cmdReady false = false) ∧
  (∀ s : State, s.resetEdge.outValid = false)

/-- R30: every field of the status word, in every state whose queue fits its 7 entries; `carry` is not in it; and its
reset value, which the spec marks [derived]. -/
def Obligations.StatusWordShowsTheRegisters : Prop :=
  (∀ s : State, QueueFits s →
    s.status.extractLsb 2 0 = s.phase.code ∧
    s.status.extractLsb 4 3 = s.life.code ∧
    s.status.getLsbD 5 = s.cfgLower ∧
    s.status.getLsbD 6 = s.cfgPad ∧
    (s.status.getLsbD 7 = true ↔ s.life = .spent ∧ s.outq = []) ∧
    s.status.getLsbD 8 = s.errIll ∧
    s.status.getLsbD 9 = s.errSeq ∧
    s.status.extractLsb 11 10 = 0#2 ∧
    (s.status.extractLsb 14 12).toNat = s.outq.length ∧
    s.status.getLsbD 15 = false ∧
    s.status.extractLsb 25 16 = s.ecmd ∧
    s.status.extractLsb 31 26 = 0#6) ∧
  (∀ (s : State) (c : Byte), State.status { s with carry := c } = s.status) ∧
  State.reset.status = 0x00000000#32

/-! ### The edge -/

/-- R40: at an accepting edge whose word decodes to a command, the step is that command's meaning, at the state in
which the edge has been used up. -/
def Obligations.StepRunsTheDecodedCommand : Prop :=
  ∀ (s : State) (e : Pins) (rest : List Pins) (i : Instr),
    s.pins = e :: rest → e.rstN = true → e.cmdValid = true → s.outq = [] → decode e.cmdWord = .ok i →
      step s = exec i { s with pins := rest }

/-- R39, R40, R41, R103: an edge resets, or accepts, or drains, or changes nothing, in that order; and with no edge
to come nothing changes (R115; the model's choice of log entry 1). -/
def Obligations.EveryEdgeDoesOneThing : Prop :=
  (∀ s : State, s.pins = [] → step s = .next s) ∧
  ∀ (s : State) (e : Pins) (rest : List Pins), s.pins = e :: rest →
    (e.rstN = false → step s = .next { State.reset with pins := rest, sink := s.sink }) ∧
    (e.rstN = true → e.cmdValid = true → s.outq = [] → step s = accept e.cmdWord { s with pins := rest }) ∧
    (e.rstN = true → s.outq ≠ [] → e.outReady = true →
      step s = .next { s with pins := rest, outq := s.outq.tail, sink := s.sink ++ s.outq.take 1 }) ∧
    (e.rstN = true → e.cmdValid = false → s.outq = [] → step s = .next { s with pins := rest }) ∧
    (e.rstN = true → s.outq ≠ [] → e.outReady = false → step s = .next { s with pins := rest })

/-- R41: `out_valid`, `out_char`, and the drain step. -/
def Obligations.DrainDeliversTheOldestCharacter : Prop :=
  (∀ s : State, (s.outValid = true ↔ s.qcount ≠ 0) ∧ (s.outValid = true → s.outq.head? = some s.outChar) ∧
    (s.outValid = false → s.outChar = 0x00#8)) ∧
  (∀ (s : State) (e : Pins) (rest : List Pins) (c : Byte) (q : List Byte),
    s.pins = e :: rest → e.rstN = true → e.outReady = true → s.outq = c :: q →
      step s = .next { s with pins := rest, outq := q, sink := s.sink ++ [c] })

/-- R42, an inference the spec marks [derived]: an accept and a drain never share an edge. -/
def Obligations.AcceptAndDrainNeverShareAnEdge : Prop :=
  ∀ (e : Pins) (s : State), ¬ (accepts e s = true ∧ drains e s = true)

/-- R121: `cmd_word` matters only at the accepting edge, where the word presented is the one accepted; at an edge
that accepts nothing the word does not matter, and while `cmd_ready = 0` neither does whether one is offered. -/
def Obligations.WordIsSampledOnlyAtTheAcceptingEdge : Prop :=
  ∀ (s : State) (e : Pins) (rest : List Pins) (w : CmdWord) (v : Bool),
    (accepts e s = false →
      step { s with pins := { e with cmdWord := w } :: rest } = step { s with pins := e :: rest }) ∧
    (s.cmdReady e.rstN = false →
      step { s with pins := { e with cmdValid := v, cmdWord := w } :: rest } = step { s with pins := e :: rest }) ∧
    (accepts e s = true → step { s with pins := e :: rest } = accept e.cmdWord { s with pins := rest })

/-! ### CONSUME -/

/-- R66: CONSUME in phase 0. -/
def Obligations.ConsumeInPhase0 : Prop :=
  ∀ (s : State) (b : Byte), s.life = .active → s.phase = .p0 → s.outq = [] →
    exec (.consume b) s = .next { s with
      outq := [symbolChar s.cfgLower (b.extractLsb 7 3)]
      carry := b &&& 0x07#8
      phase := .p3 }

/-- R67: CONSUME in phase 3. -/
def Obligations.ConsumeInPhase3 : Prop :=
  ∀ (s : State) (b : Byte), s.life = .active → s.phase = .p3 → s.outq = [] →
    exec (.consume b) s = .next { s with
      outq := [symbolChar s.cfgLower (s.carry.extractLsb 2 0 ++ b.extractLsb 7 6),
        symbolChar s.cfgLower (b.extractLsb 5 1)]
      carry := b &&& 0x01#8
      phase := .p1 }

/-- R68: CONSUME in phase 1. -/
def Obligations.ConsumeInPhase1 : Prop :=
  ∀ (s : State) (b : Byte), s.life = .active → s.phase = .p1 → s.outq = [] →
    exec (.consume b) s = .next { s with
      outq := [symbolChar s.cfgLower (s.carry.extractLsb 0 0 ++ b.extractLsb 7 4)]
      carry := b &&& 0x0F#8
      phase := .p4 }

/-- R69: CONSUME in phase 4. -/
def Obligations.ConsumeInPhase4 : Prop :=
  ∀ (s : State) (b : Byte), s.life = .active → s.phase = .p4 → s.outq = [] →
    exec (.consume b) s = .next { s with
      outq := [symbolChar s.cfgLower (s.carry.extractLsb 3 0 ++ b.extractLsb 7 7),
        symbolChar s.cfgLower (b.extractLsb 6 2)]
      carry := b &&& 0x03#8
      phase := .p2 }

/-- R70: CONSUME in phase 2. -/
def Obligations.ConsumeInPhase2 : Prop :=
  ∀ (s : State) (b : Byte), s.life = .active → s.phase = .p2 → s.outq = [] →
    exec (.consume b) s = .next { s with
      outq := [symbolChar s.cfgLower (s.carry.extractLsb 1 0 ++ b.extractLsb 7 5),
        symbolChar s.cfgLower (b.extractLsb 4 0)]
      carry := 0x00#8
      phase := .p0 }

/-- R22, R43: a CONSUME loses no bit and reorders none. The carried bits followed by the byte's bits are the bits of
the pushed symbols followed by the bits carried on. -/
def Obligations.ConsumeConservesTheBits : Prop :=
  ∀ (s t : State) (b : Byte), s.life = .active → exec (.consume b) s = .next t →
    ∃ syms : List Symbol,
      t.outq = s.outq ++ syms.map (symbolChar s.cfgLower) ∧
      carryBits s ++ msbFirst b = syms.flatMap msbFirst ++ carryBits t

/-- R73: what a CONSUME pushes, and the phase and significant carry bits it leaves, depend only on `phase`,
`carry[phase-1:0]`, `b` and `cfg_lower`. -/
def Obligations.ConsumeDependsOnlyOnPhaseCarryByteAndCase : Prop :=
  ∀ (s u : State) (b : Byte), s.life = .active → u.life = .active → s.outq = [] → u.outq = [] →
    s.phase = u.phase → carryBits s = carryBits u → s.cfgLower = u.cfgLower →
      ∃ s' u', exec (.consume b) s = .next s' ∧ exec (.consume b) u = .next u' ∧
        s'.outq = u'.outq ∧ s'.phase = u'.phase ∧ s'.carry = u'.carry

/-- R71: 1 symbol in phases 0 and 1, 2 in phases 3, 4 and 2; and 8 over five bytes from phase 0, however the
commands and drains are spread over the edges. -/
def Obligations.ConsumePushesOneOrTwoSymbols : Prop :=
  (∀ (s t : State) (b : Byte), s.life = .active → exec (.consume b) s = .next t →
    t.qcount = s.qcount + (if s.phase = .p0 ∨ s.phase = .p1 then 1 else 2)) ∧
  (∀ (n : Nat) (s t : State) (bs : List Byte), s.life = .active → s.phase = .p0 → bs.length = 5 →
    NoResetIn n s → effective n s = bs.map .consume → stepN n s = .next t →
      t.emitted.length = s.emitted.length + 8)

/-- R20, whose step the spec marks [derived]: the phase cycle, for one CONSUME and for k of them since INIT. -/
def Obligations.PhaseFollowsTheCycle : Prop :=
  (∀ (s t : State) (b : Byte), s.life = .active → exec (.consume b) s = .next t →
    t.phase.value = (s.phase.value + 8) % 5) ∧
  (∀ (n : Nat) (s t : State) (lower pad : Bool) (bs : List Byte),
    NoResetIn n s → effective n s = openStream lower pad bs → stepN n s = .next t →
      [0, 3, 1, 4, 2][bs.length % 5]? = some t.phase.value)

/-! ### FINALIZE -/

/-- R84: FINALIZE in phase 0 pushes nothing, with padding on or off. -/
def Obligations.FinalizeInPhase0 : Prop :=
  ∀ s : State, s.life = .active → s.phase = .p0 → s.outq = [] →
    exec .finalize s = .next { s with phase := .p0, carry := 0x00#8, life := .spent }

/-- R85: FINALIZE in phase 3. -/
def Obligations.FinalizeInPhase3 : Prop :=
  ∀ s : State, s.life = .active → s.phase = .p3 → s.outq = [] →
    exec .finalize s = .next { s with
      outq := symbolChar s.cfgLower (s.carry.extractLsb 2 0 ++ 0b00#2) ::
        (if s.cfgPad = true then List.replicate 6 0x3D#8 else [])
      phase := .p0, carry := 0x00#8, life := .spent }

/-- R86: FINALIZE in phase 1. -/
def Obligations.FinalizeInPhase1 : Prop :=
  ∀ s : State, s.life = .active → s.phase = .p1 → s.outq = [] →
    exec .finalize s = .next { s with
      outq := symbolChar s.cfgLower (s.carry.extractLsb 0 0 ++ 0b0000#4) ::
        (if s.cfgPad = true then List.replicate 4 0x3D#8 else [])
      phase := .p0, carry := 0x00#8, life := .spent }

/-- R87: FINALIZE in phase 4. -/
def Obligations.FinalizeInPhase4 : Prop :=
  ∀ s : State, s.life = .active → s.phase = .p4 → s.outq = [] →
    exec .finalize s = .next { s with
      outq := symbolChar s.cfgLower (s.carry.extractLsb 3 0 ++ 0b0#1) ::
        (if s.cfgPad = true then List.replicate 3 0x3D#8 else [])
      phase := .p0, carry := 0x00#8, life := .spent }

/-- R88: FINALIZE in phase 2. -/
def Obligations.FinalizeInPhase2 : Prop :=
  ∀ s : State, s.life = .active → s.phase = .p2 → s.outq = [] →
    exec .finalize s = .next { s with
      outq := symbolChar s.cfgLower (s.carry.extractLsb 1 0 ++ 0b000#3) ::
        (if s.cfgPad = true then List.replicate 1 0x3D#8 else [])
      phase := .p0, carry := 0x00#8, life := .spent }

/-- R89, an inference the spec marks [derived]: the number of characters a FINALIZE pushes in each phase, and the
total over a stream of k bytes. -/
def Obligations.StreamLengthIsFixedByTheByteCount : Prop :=
  (∀ s t : State, s.life = .active → exec .finalize s = .next t →
    t.qcount = s.qcount +
      match s.phase, s.cfgPad with
      | .p0, _ => 0
      | .p3, true => 7
      | .p1, true => 5
      | .p4, true => 4
      | .p2, true => 2
      | _, false => 1) ∧
  (∀ (n : Nat) (s t : State) (lower pad : Bool) (bs : List Byte),
    NoResetIn n s → effective n s = wholeStream lower pad bs → stepN n s = .next t →
      t.emitted.length = s.emitted.length +
        (if pad = true then 8 * ((bs.length + 4) / 5) else (8 * bs.length + 4) / 5))

/-- R90: a stream of 1, 2, 3 or 4 bytes reaches phase 3, 1, 4 or 2, and FINALIZE then pushes one symbol, and 6, 4,
3 or 1 pad characters with padding on and none with it off. -/
def Obligations.PadCountsAreExact : Prop :=
  ∀ (n : Nat) (s t : State) (lower pad : Bool) (bs : List Byte),
    NoResetIn n s → effective n s = openStream lower pad bs → stepN n s = .next t → t.outq = [] →
    1 ≤ bs.length → bs.length ≤ 4 →
      [0, 3, 1, 4, 2][bs.length]? = some t.phase.value ∧
      ∃ c : Byte, c ≠ 0x3D#8 ∧
        exec .finalize t = .next { t with
          outq := c :: (if pad = true then List.replicate ([0, 6, 4, 3, 1].getD bs.length 0) 0x3D#8 else [])
          phase := .p0, carry := 0x00#8, life := .spent }

/-- R74, an inference the spec marks [derived]: a stream whose byte count is a multiple of 5 ends in phase 0 with
`length × 8 / 5` symbols pushed, and FINALIZE adds nothing to them. -/
def Obligations.WholeCyclesNeedNoFinalSymbol : Prop :=
  ∀ (n : Nat) (s t : State) (lower pad : Bool) (bs : List Byte),
    NoResetIn n s → effective n s = openStream lower pad bs → stepN n s = .next t → 5 ∣ bs.length →
      t.phase = .p0 ∧ t.emitted.length = s.emitted.length + bs.length * 8 / 5 ∧
      (t.outq = [] → exec .finalize t = .next { t with carry := 0x00#8, life := .spent })

/-! ### The life cycle and faults -/

/-- R93: INIT opens a stream in IDLE and SPENT, and in ACTIVE raises `Seq` with no other effect. -/
def Obligations.InitOpensAStream : Prop :=
  ∀ (s : State) (l p : Bool),
    (s.life ≠ .active → exec (.init l p) s = .next { s with
      cfgLower := l, cfgPad := p, phase := .p0, carry := 0x00#8, life := .active }) ∧
    (s.life = .active → exec (.init l p) s = .next (s.raiseFault .seq (encode (.init l p))))

/-- R101: `raise K(w)` writes `ecmd` for the first fault only, sets the cause's flag, and changes nothing else. -/
def Obligations.FaultRecordingChangesOnlyTheRecord : Prop :=
  ∀ (w : CmdWord) (s : State),
    (s.errIll = false ∧ s.errSeq = false →
      s.raiseFault .ill w = { s with errIll := true, ecmd := w } ∧
      s.raiseFault .seq w = { s with errSeq := true, ecmd := w }) ∧
    (s.errIll = true ∨ s.errSeq = true →
      s.raiseFault .ill w = { s with errIll := true } ∧
      s.raiseFault .seq w = { s with errSeq := true })

/-- R100: CONSUME and FINALIZE outside a stream, and INIT in one, raise `Seq` with the command's word. -/
def Obligations.CommandsOutOfOrderRaiseSeq : Prop :=
  ∀ s : State,
    (s.life = .idle ∨ s.life = .spent →
      (∀ b : Byte, exec (.consume b) s = .next (s.raiseFault .seq (0x100#10 ||| b.setWidth 10))) ∧
      exec .finalize s = .next (s.raiseFault .seq 0x200#10)) ∧
    (s.life = .active → ∀ l p : Bool,
      exec (.init l p) s = .next (s.raiseFault .seq
        (0x300#10 ||| (if p = true then 2#10 else 0#10) ||| (if l = true then 1#10 else 0#10))))

/-- R94, R99: an illegal word, accepted in any life state, sets `err_ill`, stores the word in `ecmd` if it is the
first fault, and changes nothing else. -/
def Obligations.IllegalWordRaisesIll : Prop :=
  ∀ (s : State) (e : Pins) (rest : List Pins) (r : Illegal),
    s.pins = e :: rest → e.rstN = true → e.cmdValid = true → s.outq = [] → decode e.cmdWord = .error r →
      step s = .next { s with
        pins := rest
        errIll := true
        ecmd := if s.errIll = true ∨ s.errSeq = true then s.ecmd else e.cmdWord }

/-- R102: an illegal word raises `Ill` and never `Seq`; a legal word raises `Seq` or nothing. -/
def Obligations.OneCausePerCommand : Prop :=
  ∀ (w : CmdWord) (s t : State), accept w s = .next t →
    ((∃ r, decode w = .error r) → t.errIll = true ∧ t.errSeq = s.errSeq) ∧
    (∀ i, decode w = .ok i → t.errIll = s.errIll ∧ (t.errSeq = true ↔ s.errSeq = true ∨ lifeAdmits s.life i = false))

/-- R106: a fault is precise. A step that accepts an illegal word or a refused command leaves everything but
`err_ill`, `err_seq` and `ecmd` as it was, with the edge used up. -/
def Obligations.FaultsArePrecise : Prop :=
  ∀ (s : State) (w : CmdWord), acceptedNow s = some w → effectiveNow s = none →
    ∃ t, step s = .next t ∧ SameButRecord { s with pins := s.pins.tail } t ∧
      (t.errIll = true ∨ t.errSeq = true)

/-- R104: no step but a reset clears a flag or overwrites the first fault's word; a second fault sets its own flag,
so both may be 1 together. -/
def Obligations.FaultRecordIsStickyUntilReset : Prop :=
  (∀ (s t : State), NoResetIn 1 s → step s = .next t →
    (s.errIll = true → t.errIll = true) ∧ (s.errSeq = true → t.errSeq = true) ∧
    (s.errIll = true ∨ s.errSeq = true → t.ecmd = s.ecmd)) ∧
  (∀ (s : State) (k : Cause) (w w' : CmdWord),
    let u := (s.raiseFault k w).raiseFault (if k = .ill then .seq else .ill) w'
    u.errIll = true ∧ u.errSeq = true ∧ u.ecmd = (s.raiseFault k w).ecmd)

/-- R95: the life-cycle table, with the fault each entry records; reset moves `life` to IDLE. -/
def Obligations.LifeFollowsTheTable : Prop :=
  (∀ (w : CmdWord) (s t : State), accept w s = .next t →
    match decode w, s.life with
    | .ok (.init _ _), .idle => t.life = .active ∧ t.errSeq = s.errSeq ∧ t.errIll = s.errIll
    | .ok (.init _ _), .spent => t.life = .active ∧ t.errSeq = s.errSeq ∧ t.errIll = s.errIll
    | .ok (.init _ _), .active => t.life = .active ∧ t.errSeq = true ∧ t.errIll = s.errIll
    | .ok (.consume _), .active =>
      t.life = .active ∧ t.phase.value = (s.phase.value + 8) % 5 ∧ t.errSeq = s.errSeq ∧ t.errIll = s.errIll
    | .ok .finalize, .active => t.life = .spent ∧ t.errSeq = s.errSeq ∧ t.errIll = s.errIll
    | .ok _, l => t.life = l ∧ t.errSeq = true ∧ t.errIll = s.errIll
    | .error _, l => t.life = l ∧ t.errIll = true ∧ t.errSeq = s.errSeq) ∧
  (∀ s : State, s.resetEdge.life = .idle)

/-- R24: the configuration changes, but for reset, only at a step that carries out an INIT, and then `life` was not
ACTIVE; INIT writes the bits it carries. -/
def Obligations.OnlyInitWritesTheConfiguration : Prop :=
  ∀ (s t : State), NoResetIn 1 s → step s = .next t →
    (t.cfgLower ≠ s.cfgLower ∨ t.cfgPad ≠ s.cfgPad →
      s.life ≠ .active ∧ ∃ l p, effectiveNow s = some (.init l p)) ∧
    (∀ l p, effectiveNow s = some (.init l p) → t.cfgLower = l ∧ t.cfgPad = p)

/-- R96: the phase changes, but for reset, only while `life = ACTIVE`, or by an INIT, to 0; FINALIZE and INIT leave
it 0; in IDLE and SPENT it stays 0. -/
def Obligations.PhaseChangesOnlyInAStream : Prop :=
  ∀ (s t : State), Inv s → NoResetIn 1 s → step s = .next t →
    (t.phase ≠ s.phase → s.life = .active) ∧
    (effectiveNow s = some .finalize → t.phase = .p0) ∧
    (∀ l p, effectiveNow s = some (.init l p) → t.phase = .p0) ∧
    (t.life ≠ .active → t.phase = .p0)

/-- The frame of the three commands (R65, R83, R93): what each leaves unchanged when it is carried out, and what a
refused one leaves unchanged; a push only appends to the queue. -/
def Obligations.CommandsChangeNothingElse : Prop :=
  (∀ (s t : State) (b : Byte), s.life = .active → exec (.consume b) s = .next t →
    (∃ cs, t.outq = s.outq ++ cs) ∧ t.life = s.life ∧ t.cfgLower = s.cfgLower ∧ t.cfgPad = s.cfgPad ∧
    t.errIll = s.errIll ∧ t.errSeq = s.errSeq ∧ t.ecmd = s.ecmd ∧ t.pins = s.pins ∧ t.sink = s.sink) ∧
  (∀ s t : State, s.life = .active → exec .finalize s = .next t →
    (∃ cs, t.outq = s.outq ++ cs) ∧ t.cfgLower = s.cfgLower ∧ t.cfgPad = s.cfgPad ∧
    t.errIll = s.errIll ∧ t.errSeq = s.errSeq ∧ t.ecmd = s.ecmd ∧ t.pins = s.pins ∧ t.sink = s.sink) ∧
  (∀ (s t : State) (l p : Bool), s.life ≠ .active → exec (.init l p) s = .next t →
    t.outq = s.outq ∧ t.errIll = s.errIll ∧ t.errSeq = s.errSeq ∧ t.ecmd = s.ecmd ∧ t.pins = s.pins ∧
    t.sink = s.sink) ∧
  (∀ (s t : State) (i : Instr), lifeAdmits s.life i = false → exec i s = .next t → SameButRecord s t)

/-! ### The emitter -/

/-- R75, R76, R77, with the codes the spec marks as general knowledge (log entry 8): the character codes in
arithmetic form, in both cases; `=` is 0x3D; bit 7 of every code is 0. -/
def Obligations.AlphabetAndCaseFold : Prop :=
  (∀ v : Symbol, v.toNat ≤ 25 →
    (symbolChar false v).toNat = 0x41 + v.toNat ∧ (symbolChar true v).toNat = 0x61 + v.toNat) ∧
  (∀ v : Symbol, 26 ≤ v.toNat →
    (symbolChar false v).toNat = 0x32 + (v.toNat - 26) ∧ symbolChar true v = symbolChar false v) ∧
  padChar = 0x3D#8 ∧
  (∀ (lower : Bool) (v : Symbol), (symbolChar lower v).getLsbD 7 = false)

/-- R78, R79, R80: the two emitter primitives, and the entries each adds. -/
def Obligations.EmitterPrimitivesAppend : Prop :=
  (∀ (v : Symbol) (s : State), s.emit5 v = { s with outq := s.outq ++
      [if s.cfgLower = true ∧ v.toNat ≤ 25 then upper v + 0x20#8 else upper v] }) ∧
  (∀ (n : Nat) (s : State), s.pad n = { s with outq := s.outq ++ List.replicate n 0x3D#8 }) ∧
  (∀ (v : Symbol) (s : State), (s.emit5 v).qcount = s.qcount + 1) ∧
  (∀ (n : Nat) (s : State), (s.pad n).qcount = s.qcount + n)

/-- R81: every code on `out_char` while `out_valid = 1` is a digit, `=`, or a letter of the configured case. It holds
at reset, every step keeps it, and it bounds `out_char`. -/
def Obligations.OutputCodesStayInTheAlphabet : Prop :=
  OutputCodes State.reset ∧
  (∀ s t : State, OutputCodes s → step s = .next t → OutputCodes t) ∧
  (∀ s : State, OutputCodes s → s.outValid = true → outputCode s.cfgLower s.outChar = true)

/-! ### Whole-machine rules -/

/-- The invariants of R33, which the spec marks [derived], hold at reset. -/
def Obligations.InvariantsHoldAtReset : Prop := Inv State.reset

/-- R33, an inference the spec marks [derived]: every step keeps the invariants. -/
def Obligations.EveryStepKeepsTheInvariants : Prop :=
  ∀ s t : State, Inv s → step s = .next t → Inv t

/-- R80, an inference the spec marks [derived]: every command that is accepted (the queue is empty) completes, in
every life state, and leaves at most 7 entries. -/
def Obligations.AcceptedCommandsComplete : Prop :=
  ∀ (i : Instr) (s : State), s.outq = [] → ∃ t, exec i s = .next t ∧ t.qcount ≤ 7

/-- R80 (an inference the spec marks [derived]), R101: from a state of R33 no step stops the machine. -/
def Obligations.NoStepStopsTheMachine : Prop :=
  ∀ s : State, QueueFits s → ∃ t, step s = .next t

/-- The model's choice of log entries 4 and 12, where `exec` is applied to a state whose queue need not be empty: a
CONSUME or FINALIZE in a stream stops exactly when the queue's entries and those it pushes, in every phase and with
padding on or off, are more than 7; INIT, and any command its life state refuses, never stops. `step` applies `exec`
only at an accept, where the queue is empty (R39), so no step stops so (NoStepStopsTheMachine). -/
def Obligations.PushPastTheQueueStops : Prop :=
  (∀ (b : Byte) (s : State), s.life = .active →
    (exec (.consume b) s = .fault .outqOverflow ↔
      7 < s.qcount + (if s.phase = .p0 ∨ s.phase = .p1 then 1 else 2))) ∧
  (∀ s : State, s.life = .active →
    (exec .finalize s = .fault .outqOverflow ↔
      7 < s.qcount +
        match s.phase, s.cfgPad with
        | .p0, _ => 0
        | .p3, true => 7
        | .p1, true => 5
        | .p4, true => 4
        | .p2, true => 2
        | _, false => 1)) ∧
  (∀ (l p : Bool) (s : State), ∃ t, exec (.init l p) s = .next t) ∧
  (∀ (i : Instr) (s : State), lifeAdmits s.life i = false → ∃ t, exec i s = .next t)

/-- R47: over any run without reset, the characters delivered, followed by those still queued, are what was there
before followed by what each accepted command pushed, in order of acceptance. -/
def Obligations.CharactersLeaveInTheOrderPushed : Prop :=
  ∀ (n : Nat) (s t : State), NoResetIn n s → stepN n s = .next t → t.emitted = s.emitted ++ pushed n s

/-- R126, whose last sentence the spec marks [derived]: while the sink takes nothing a queued character blocks the
block for ever, with no command accepted and no fault; and it stalls for no other reason: once the sink takes
`qcount` characters, the block is ready. -/
def Obligations.OnlyTheSinkStallsTheBlock : Prop :=
  (∀ (n : Nat) (s : State), s.outq ≠ [] → NoResetIn n s → (∀ e ∈ s.pins.take n, e.outReady = false) →
    stepN n s = .next { s with pins := s.pins.drop n } ∧ s.cmdReady true = false) ∧
  (∀ s : State, s.qcount ≤ s.pins.length → NoResetIn s.qcount s →
    (∀ e ∈ s.pins.take s.qcount, e.outReady = true) →
      ∃ t, stepN s.qcount s = .next t ∧ t = { s with
          pins := s.pins.drop s.qcount, outq := [], sink := s.sink ++ s.outq } ∧ t.cmdReady true = true)

/-- R26, and R97 (an inference the spec marks [derived]): the fault record never steers the block. Two states that
differ only in it take the same step, up to the record. -/
def Obligations.FaultRecordNeverSteersTheBlock : Prop :=
  ∀ s u s' : State, SameButRecord s u → step s = .next s' →
    ∃ u', step u = .next u' ∧ SameButRecord s' u'

/-! ### Streams -/

/-- R72, an inference the spec marks [derived]: before FINALIZE, a stream has pushed the whole 5-bit groups of its
bits, in order, and carries the rest; whatever the state before it, the times of its commands and drains, and the
refused words between them. -/
def Obligations.OpenStreamEmitsTheGroupsOfItsBits : Prop :=
  ∀ (n : Nat) (s t : State) (lower pad : Bool) (bs : List Byte),
    NoResetIn n s → effective n s = openStream lower pad bs → stepN n s = .next t →
      (groups (streamBits bs)).length = 8 * bs.length / 5 ∧
      (groups (streamBits bs)).flatMap msbFirst = (streamBits bs).take (5 * (8 * bs.length / 5)) ∧
      t.emitted = s.emitted ++ (groups (streamBits bs)).map (symbolChar lower) ∧
      t.phase.value = 8 * bs.length % 5 ∧
      carryBits t = (streamBits bs).drop (8 * bs.length - 8 * bs.length % 5)

/-- R2, and R91 and R97 (inferences the spec marks [derived]): a whole stream sends the Base32 text of its bytes and
nothing else, whatever the state before it, the times of its commands and drains, and the refused words between
them; DONE then says whether all of it has been delivered. -/
def Obligations.WholeStreamEmitsItsBase32Text : Prop :=
  ∀ (n : Nat) (s t : State) (lower pad : Bool) (bs : List Byte),
    NoResetIn n s → effective n s = wholeStream lower pad bs → stepN n s = .next t →
      t.emitted = s.emitted ++ base32 lower pad bs ∧ t.life = .spent ∧
      (t.done = true → t.sink = s.emitted ++ base32 lower pad bs)

/-- R97, an inference the spec marks [derived]: what a stream outputs depends only on its INIT word and its bytes:
any two runs that carry out the same stream, from any two states, at any times, with any refused words between, send
the same characters. -/
def Obligations.StreamOutputDependsOnlyOnItsCommands : Prop :=
  ∀ (n m : Nat) (s s' u u' : State) (lower pad : Bool) (bs : List Byte),
    NoResetIn n s → NoResetIn m u →
    effective n s = wholeStream lower pad bs → effective m u = wholeStream lower pad bs →
    stepN n s = .next s' → stepN m u = .next u' →
      ∃ cs, s'.emitted = s.emitted ++ cs ∧ u'.emitted = u.emitted ++ cs

/-- R82, an inference the spec marks [derived]: the outputs of the same bytes with the same padding in the two cases
are the same text up to the case of letters. -/
def Obligations.CaseChangesOnlyLetters : Prop :=
  ∀ (n m : Nat) (s s' u u' : State) (pad : Bool) (bs : List Byte) (upperText lowerText : List Byte),
    NoResetIn n s → NoResetIn m u →
    effective n s = wholeStream false pad bs → effective m u = wholeStream true pad bs →
    stepN n s = .next s' → stepN m u = .next u' →
    s'.emitted = s.emitted ++ upperText → u'.emitted = u.emitted ++ lowerText →
      lowerText.map upperForm = upperText ∧
      ∀ k : Nat, ∀ c : Byte, lowerText[k]? = some c → c.toNat < 0x61 → upperText[k]? = some c

/-- R127: with a sink that is always ready and commands offered as soon as they can be accepted, a stream of k bytes
takes `(k + 2) + (total characters)` edges, after which DONE reads 1 and the whole text has been delivered. -/
def Obligations.FullSpeedStreamTakesTheStatedEdges : Prop :=
  ∀ (s : State) (lower pad : Bool) (bs : List Byte) (rest : List Pins),
    s.life ≠ .active → s.outq = [] → s.pins = streamEdges lower pad bs ++ rest →
      (streamEdges lower pad bs).length = (bs.length + 2) + (base32 lower pad bs).length ∧
      stepN (streamEdges lower pad bs).length s = .next { s with
        pins := rest
        phase := .p0
        carry := 0x00#8
        cfgLower := lower
        cfgPad := pad
        life := .spent
        sink := s.sink ++ base32 lower pad bs }

/-! ### The assembler -/

/-- R63: the word each line stands for, and the operands the assembler refuses. -/
def Obligations.AssemblerWordsAndRefusals : Prop :=
  (∀ l p : Bool, (AsmLine.init l p).assemble =
    some [0x300#10 ||| (if p = true then 2#10 else 0#10) ||| (if l = true then 1#10 else 0#10)]) ∧
  (∀ n : Nat, n ≤ 255 → (AsmLine.consume n).assemble = some [0x100#10 ||| BitVec.ofNat 10 n]) ∧
  (∀ n : Nat, 255 < n → (AsmLine.consume n).assemble = none) ∧
  AsmLine.finalize.assemble = some [0x200#10] ∧
  (∀ w : Nat, w ≤ 0x3FF → (AsmLine.word w).assemble = some [BitVec.ofNat 10 w]) ∧
  (∀ w : Nat, 0x3FF < w → (AsmLine.word w).assemble = none)

/-- R64: the expansions of BYTES and STREAM, as the commands their words decode to. -/
def Obligations.PseudoInstructionsExpand : Prop :=
  (∀ bs : List Nat, bs ≠ [] → (∀ n ∈ bs, n ≤ 255) →
    ∃ ws, (AsmLine.bytes bs).assemble = some ws ∧
      ws.map decode = bs.map fun n => .ok (.consume (BitVec.ofNat 8 n))) ∧
  (AsmLine.bytes []).assemble = none ∧
  (∀ (l p : Bool) (bs : List Nat), (∀ n ∈ bs, n ≤ 255) →
    ∃ ws, (AsmLine.stream l p bs).assemble = some ws ∧
      ws.map decode = (wholeStream l p (bs.map (BitVec.ofNat 8))).map .ok)
end

