-- ==== Sys2Proof/Laws/State.lean ====
section
/-! SUPPORT. One lemma per field per update of State, so that no later proof unfolds a record update. -/

namespace Sys2Proof.Machine

@[simp] theorem State.setPhase_phase (s : State) (p : Phase) : (s.setPhase p).phase = p := rfl
@[simp] theorem State.setPhase_carry (s : State) (p : Phase) : (s.setPhase p).carry = s.carry := rfl
@[simp] theorem State.setPhase_cfgLower (s : State) (p : Phase) : (s.setPhase p).cfgLower = s.cfgLower := rfl
@[simp] theorem State.setPhase_cfgPad (s : State) (p : Phase) : (s.setPhase p).cfgPad = s.cfgPad := rfl
@[simp] theorem State.setPhase_life (s : State) (p : Phase) : (s.setPhase p).life = s.life := rfl
@[simp] theorem State.setPhase_errIll (s : State) (p : Phase) : (s.setPhase p).errIll = s.errIll := rfl
@[simp] theorem State.setPhase_errSeq (s : State) (p : Phase) : (s.setPhase p).errSeq = s.errSeq := rfl
@[simp] theorem State.setPhase_ecmd (s : State) (p : Phase) : (s.setPhase p).ecmd = s.ecmd := rfl
@[simp] theorem State.setPhase_outq (s : State) (p : Phase) : (s.setPhase p).outq = s.outq := rfl
@[simp] theorem State.setPhase_pins (s : State) (p : Phase) : (s.setPhase p).pins = s.pins := rfl
@[simp] theorem State.setPhase_sink (s : State) (p : Phase) : (s.setPhase p).sink = s.sink := rfl

@[simp] theorem State.setCarry_phase (s : State) (c : Byte) : (s.setCarry c).phase = s.phase := rfl
@[simp] theorem State.setCarry_carry (s : State) (c : Byte) : (s.setCarry c).carry = c := rfl
@[simp] theorem State.setCarry_cfgLower (s : State) (c : Byte) : (s.setCarry c).cfgLower = s.cfgLower := rfl
@[simp] theorem State.setCarry_cfgPad (s : State) (c : Byte) : (s.setCarry c).cfgPad = s.cfgPad := rfl
@[simp] theorem State.setCarry_life (s : State) (c : Byte) : (s.setCarry c).life = s.life := rfl
@[simp] theorem State.setCarry_errIll (s : State) (c : Byte) : (s.setCarry c).errIll = s.errIll := rfl
@[simp] theorem State.setCarry_errSeq (s : State) (c : Byte) : (s.setCarry c).errSeq = s.errSeq := rfl
@[simp] theorem State.setCarry_ecmd (s : State) (c : Byte) : (s.setCarry c).ecmd = s.ecmd := rfl
@[simp] theorem State.setCarry_outq (s : State) (c : Byte) : (s.setCarry c).outq = s.outq := rfl
@[simp] theorem State.setCarry_pins (s : State) (c : Byte) : (s.setCarry c).pins = s.pins := rfl
@[simp] theorem State.setCarry_sink (s : State) (c : Byte) : (s.setCarry c).sink = s.sink := rfl

@[simp] theorem State.setLife_phase (s : State) (l : Life) : (s.setLife l).phase = s.phase := rfl
@[simp] theorem State.setLife_carry (s : State) (l : Life) : (s.setLife l).carry = s.carry := rfl
@[simp] theorem State.setLife_cfgLower (s : State) (l : Life) : (s.setLife l).cfgLower = s.cfgLower := rfl
@[simp] theorem State.setLife_cfgPad (s : State) (l : Life) : (s.setLife l).cfgPad = s.cfgPad := rfl
@[simp] theorem State.setLife_life (s : State) (l : Life) : (s.setLife l).life = l := rfl
@[simp] theorem State.setLife_errIll (s : State) (l : Life) : (s.setLife l).errIll = s.errIll := rfl
@[simp] theorem State.setLife_errSeq (s : State) (l : Life) : (s.setLife l).errSeq = s.errSeq := rfl
@[simp] theorem State.setLife_ecmd (s : State) (l : Life) : (s.setLife l).ecmd = s.ecmd := rfl
@[simp] theorem State.setLife_outq (s : State) (l : Life) : (s.setLife l).outq = s.outq := rfl
@[simp] theorem State.setLife_pins (s : State) (l : Life) : (s.setLife l).pins = s.pins := rfl
@[simp] theorem State.setLife_sink (s : State) (l : Life) : (s.setLife l).sink = s.sink := rfl

@[simp] theorem State.setConfig_phase (s : State) (l p : Bool) : (s.setConfig l p).phase = s.phase := rfl
@[simp] theorem State.setConfig_carry (s : State) (l p : Bool) : (s.setConfig l p).carry = s.carry := rfl
@[simp] theorem State.setConfig_cfgLower (s : State) (l p : Bool) : (s.setConfig l p).cfgLower = l := rfl
@[simp] theorem State.setConfig_cfgPad (s : State) (l p : Bool) : (s.setConfig l p).cfgPad = p := rfl
@[simp] theorem State.setConfig_life (s : State) (l p : Bool) : (s.setConfig l p).life = s.life := rfl
@[simp] theorem State.setConfig_errIll (s : State) (l p : Bool) : (s.setConfig l p).errIll = s.errIll := rfl
@[simp] theorem State.setConfig_errSeq (s : State) (l p : Bool) : (s.setConfig l p).errSeq = s.errSeq := rfl
@[simp] theorem State.setConfig_ecmd (s : State) (l p : Bool) : (s.setConfig l p).ecmd = s.ecmd := rfl
@[simp] theorem State.setConfig_outq (s : State) (l p : Bool) : (s.setConfig l p).outq = s.outq := rfl
@[simp] theorem State.setConfig_pins (s : State) (l p : Bool) : (s.setConfig l p).pins = s.pins := rfl
@[simp] theorem State.setConfig_sink (s : State) (l p : Bool) : (s.setConfig l p).sink = s.sink := rfl

@[simp] theorem State.push_phase (s : State) (c : Byte) : (s.push c).phase = s.phase := rfl
@[simp] theorem State.push_carry (s : State) (c : Byte) : (s.push c).carry = s.carry := rfl
@[simp] theorem State.push_cfgLower (s : State) (c : Byte) : (s.push c).cfgLower = s.cfgLower := rfl
@[simp] theorem State.push_cfgPad (s : State) (c : Byte) : (s.push c).cfgPad = s.cfgPad := rfl
@[simp] theorem State.push_life (s : State) (c : Byte) : (s.push c).life = s.life := rfl
@[simp] theorem State.push_errIll (s : State) (c : Byte) : (s.push c).errIll = s.errIll := rfl
@[simp] theorem State.push_errSeq (s : State) (c : Byte) : (s.push c).errSeq = s.errSeq := rfl
@[simp] theorem State.push_ecmd (s : State) (c : Byte) : (s.push c).ecmd = s.ecmd := rfl
@[simp] theorem State.push_outq (s : State) (c : Byte) : (s.push c).outq = s.outq ++ [c] := rfl
@[simp] theorem State.push_pins (s : State) (c : Byte) : (s.push c).pins = s.pins := rfl
@[simp] theorem State.push_sink (s : State) (c : Byte) : (s.push c).sink = s.sink := rfl

@[simp] theorem State.emit5_phase (s : State) (v : Symbol) : (s.emit5 v).phase = s.phase := rfl
@[simp] theorem State.emit5_carry (s : State) (v : Symbol) : (s.emit5 v).carry = s.carry := rfl
@[simp] theorem State.emit5_cfgLower (s : State) (v : Symbol) : (s.emit5 v).cfgLower = s.cfgLower := rfl
@[simp] theorem State.emit5_cfgPad (s : State) (v : Symbol) : (s.emit5 v).cfgPad = s.cfgPad := rfl
@[simp] theorem State.emit5_life (s : State) (v : Symbol) : (s.emit5 v).life = s.life := rfl
@[simp] theorem State.emit5_errIll (s : State) (v : Symbol) : (s.emit5 v).errIll = s.errIll := rfl
@[simp] theorem State.emit5_errSeq (s : State) (v : Symbol) : (s.emit5 v).errSeq = s.errSeq := rfl
@[simp] theorem State.emit5_ecmd (s : State) (v : Symbol) : (s.emit5 v).ecmd = s.ecmd := rfl
@[simp] theorem State.emit5_outq (s : State) (v : Symbol) : (s.emit5 v).outq = s.outq ++ [symbolChar s.cfgLower v] := rfl
@[simp] theorem State.emit5_pins (s : State) (v : Symbol) : (s.emit5 v).pins = s.pins := rfl
@[simp] theorem State.emit5_sink (s : State) (v : Symbol) : (s.emit5 v).sink = s.sink := rfl

@[simp] theorem State.resetEdge_phase (s : State) : s.resetEdge.phase = State.reset.phase := rfl
@[simp] theorem State.resetEdge_carry (s : State) : s.resetEdge.carry = State.reset.carry := rfl
@[simp] theorem State.resetEdge_cfgLower (s : State) : s.resetEdge.cfgLower = State.reset.cfgLower := rfl
@[simp] theorem State.resetEdge_cfgPad (s : State) : s.resetEdge.cfgPad = State.reset.cfgPad := rfl
@[simp] theorem State.resetEdge_life (s : State) : s.resetEdge.life = State.reset.life := rfl
@[simp] theorem State.resetEdge_errIll (s : State) : s.resetEdge.errIll = State.reset.errIll := rfl
@[simp] theorem State.resetEdge_errSeq (s : State) : s.resetEdge.errSeq = State.reset.errSeq := rfl
@[simp] theorem State.resetEdge_ecmd (s : State) : s.resetEdge.ecmd = State.reset.ecmd := rfl
@[simp] theorem State.resetEdge_outq (s : State) : s.resetEdge.outq = State.reset.outq := rfl
@[simp] theorem State.resetEdge_pins (s : State) : s.resetEdge.pins = s.pins := rfl
@[simp] theorem State.resetEdge_sink (s : State) : s.resetEdge.sink = s.sink := rfl

@[simp] theorem State.raiseFault_phase (s : State) (k : Cause) (w : CmdWord) : (s.raiseFault k w).phase = s.phase := rfl
@[simp] theorem State.raiseFault_carry (s : State) (k : Cause) (w : CmdWord) : (s.raiseFault k w).carry = s.carry := rfl
@[simp] theorem State.raiseFault_cfgLower (s : State) (k : Cause) (w : CmdWord) : (s.raiseFault k w).cfgLower = s.cfgLower := rfl
@[simp] theorem State.raiseFault_cfgPad (s : State) (k : Cause) (w : CmdWord) : (s.raiseFault k w).cfgPad = s.cfgPad := rfl
@[simp] theorem State.raiseFault_life (s : State) (k : Cause) (w : CmdWord) : (s.raiseFault k w).life = s.life := rfl
@[simp] theorem State.raiseFault_errIll (s : State) (k : Cause) (w : CmdWord) :
    (s.raiseFault k w).errIll = (match k with | .ill => true | .seq => s.errIll) := rfl
@[simp] theorem State.raiseFault_errSeq (s : State) (k : Cause) (w : CmdWord) :
    (s.raiseFault k w).errSeq = (match k with | .ill => s.errSeq | .seq => true) := rfl
@[simp] theorem State.raiseFault_ecmd (s : State) (k : Cause) (w : CmdWord) :
    (s.raiseFault k w).ecmd = if s.errIll = false ∧ s.errSeq = false then w else s.ecmd := rfl
@[simp] theorem State.raiseFault_outq (s : State) (k : Cause) (w : CmdWord) : (s.raiseFault k w).outq = s.outq := rfl
@[simp] theorem State.raiseFault_pins (s : State) (k : Cause) (w : CmdWord) : (s.raiseFault k w).pins = s.pins := rfl
@[simp] theorem State.raiseFault_sink (s : State) (k : Cause) (w : CmdWord) : (s.raiseFault k w).sink = s.sink := rfl

/-- `Pad(n)` appends `n` pad characters and changes nothing else (R79). -/
theorem State.pad_eq (s : State) (n : Nat) :
    s.pad n = { s with outq := s.outq ++ List.replicate n padChar } := by
  induction n generalizing s with
  | zero => simp [State.pad]
  | succ n ih => simp [State.pad, ih, State.push, List.replicate_succ]

/-- The pad characters of FINALIZE, or none with padding off (R85 to R88). -/
theorem State.padIfOn_eq (s : State) (n : Nat) :
    s.padIfOn n = { s with outq := s.outq ++ if s.cfgPad = true then List.replicate n padChar else [] } := by
  unfold State.padIfOn
  split <;> simp [State.pad_eq]

@[simp] theorem State.padIfOn_phase (s : State) (n : Nat) :
    (s.padIfOn n).phase = s.phase := by simp [State.padIfOn_eq]
@[simp] theorem State.padIfOn_carry (s : State) (n : Nat) :
    (s.padIfOn n).carry = s.carry := by simp [State.padIfOn_eq]
@[simp] theorem State.padIfOn_cfgLower (s : State) (n : Nat) :
    (s.padIfOn n).cfgLower = s.cfgLower := by simp [State.padIfOn_eq]
@[simp] theorem State.padIfOn_cfgPad (s : State) (n : Nat) :
    (s.padIfOn n).cfgPad = s.cfgPad := by simp [State.padIfOn_eq]
@[simp] theorem State.padIfOn_life (s : State) (n : Nat) :
    (s.padIfOn n).life = s.life := by simp [State.padIfOn_eq]
@[simp] theorem State.padIfOn_errIll (s : State) (n : Nat) :
    (s.padIfOn n).errIll = s.errIll := by simp [State.padIfOn_eq]
@[simp] theorem State.padIfOn_errSeq (s : State) (n : Nat) :
    (s.padIfOn n).errSeq = s.errSeq := by simp [State.padIfOn_eq]
@[simp] theorem State.padIfOn_ecmd (s : State) (n : Nat) :
    (s.padIfOn n).ecmd = s.ecmd := by simp [State.padIfOn_eq]
@[simp] theorem State.padIfOn_outq (s : State) (n : Nat) :
    (s.padIfOn n).outq = s.outq ++ if s.cfgPad = true then List.replicate n padChar else [] := by simp [State.padIfOn_eq]
@[simp] theorem State.padIfOn_pins (s : State) (n : Nat) :
    (s.padIfOn n).pins = s.pins := by simp [State.padIfOn_eq]
@[simp] theorem State.padIfOn_sink (s : State) (n : Nat) :
    (s.padIfOn n).sink = s.sink := by simp [State.padIfOn_eq]

@[simp] theorem State.drain_phase (s : State) : s.drain.phase = s.phase := by
  unfold State.drain; split <;> simp_all
@[simp] theorem State.drain_carry (s : State) : s.drain.carry = s.carry := by
  unfold State.drain; split <;> simp_all
@[simp] theorem State.drain_cfgLower (s : State) : s.drain.cfgLower = s.cfgLower := by
  unfold State.drain; split <;> simp_all
@[simp] theorem State.drain_cfgPad (s : State) : s.drain.cfgPad = s.cfgPad := by
  unfold State.drain; split <;> simp_all
@[simp] theorem State.drain_life (s : State) : s.drain.life = s.life := by
  unfold State.drain; split <;> simp_all
@[simp] theorem State.drain_errIll (s : State) : s.drain.errIll = s.errIll := by
  unfold State.drain; split <;> simp_all
@[simp] theorem State.drain_errSeq (s : State) : s.drain.errSeq = s.errSeq := by
  unfold State.drain; split <;> simp_all
@[simp] theorem State.drain_ecmd (s : State) : s.drain.ecmd = s.ecmd := by
  unfold State.drain; split <;> simp_all
@[simp] theorem State.drain_outq (s : State) : s.drain.outq = s.outq.tail := by
  unfold State.drain; split <;> simp_all
@[simp] theorem State.drain_pins (s : State) : s.drain.pins = s.pins := by
  unfold State.drain; split <;> simp_all
@[simp] theorem State.drain_sink (s : State) : s.drain.sink = s.sink ++ s.outq.head?.toList := by
  unfold State.drain; split <;> simp_all

/-- A drain moves one character and loses none (R41, R47). -/
@[simp] theorem State.drain_emitted (s : State) : s.drain.emitted = s.emitted := by
  unfold State.drain State.emitted; split <;> simp_all

end Sys2Proof.Machine
end

