-- ==== Sys2Proof/Laws/Ops.lean ====
section
/-! SUPPORT. What each shared operation can do: the queue check, the phase cases of CONSUME and FINALIZE. -/

namespace Sys2Proof.Machine

/-- `commit` answers the state it is given, when the queue holds it (R29, R80). -/
theorem commit_next_iff {s t : State} : commit s = .next t ↔ s.qcount ≤ Config.outqDepth ∧ t = s := by
  unfold commit
  split <;> simp_all [eq_comm]

theorem commit_of_fits {s : State} (h : s.qcount ≤ Config.outqDepth) : commit s = .next s := by
  simp [commit, h]

/-- The symbols one CONSUME pushes, as a function of the phase, the carry and the byte (R66 to R70, R73). -/
def consumeSymbols : Phase → Byte → Byte → List Symbol
  | .p0, _, b => [b.extractLsb 7 3]
  | .p3, c, b => [carry3 c ++ b.extractLsb 7 6, b.extractLsb 5 1]
  | .p1, c, b => [carry1 c ++ b.extractLsb 7 4]
  | .p4, c, b => [carry4 c ++ b.extractLsb 7 7, b.extractLsb 6 2]
  | .p2, c, b => [carry2 c ++ b.extractLsb 7 5, b.extractLsb 4 0]

/-- The carry one CONSUME keeps (R66 to R70). -/
def keptCarry : Phase → Byte → Byte
  | .p0, b => zext8 (b.extractLsb 2 0)
  | .p3, b => zext8 (b.extractLsb 0 0)
  | .p1, b => zext8 (b.extractLsb 3 0)
  | .p4, b => zext8 (b.extractLsb 1 0)
  | .p2, _ => 0x00#8

/-- The phase after one CONSUME (R20). -/
def nextPhase : Phase → Phase
  | .p0 => .p3
  | .p3 => .p1
  | .p1 => .p4
  | .p4 => .p2
  | .p2 => .p0

/-- The symbol of the last partial group, if there is one (R84 to R88). -/
def finalSymbol : Phase → Byte → List Symbol
  | .p0, _ => []
  | .p3, c => [carry3 c ++ 0b00#2]
  | .p1, c => [carry1 c ++ 0b0000#4]
  | .p4, c => [carry4 c ++ 0b0#1]
  | .p2, c => [carry2 c ++ 0b000#3]

/-- The pad characters each phase needs (R90). -/
def padCount : Phase → Nat
  | .p0 => 0
  | .p3 => 6
  | .p1 => 4
  | .p4 => 3
  | .p2 => 1

/-- Everything the phase case of a CONSUME does. -/
theorem consumeCase_eq (b : Byte) (s : State) :
    consumeCase b s = { s with
      phase := nextPhase s.phase
      carry := keptCarry s.phase b
      outq := s.outq ++ (consumeSymbols s.phase s.carry b).map (symbolChar s.cfgLower) } := by
  unfold consumeCase
  cases h : s.phase <;>
    simp [consP0, consP3, consP1, consP4, consP2, State.emit5, State.push, State.setCarry, State.setPhase,
      nextPhase, keptCarry, consumeSymbols]

/-- Everything the phase case of a FINALIZE does. -/
theorem finalizeCase_eq (s : State) :
    finalizeCase s = { s with
      outq := s.outq ++ (finalSymbol s.phase s.carry).map (symbolChar s.cfgLower) ++
        if s.cfgPad = true then List.replicate (padCount s.phase) padChar else [] } := by
  obtain ⟨phase, carry, cfgLower, cfgPad, life, errIll, errSeq, ecmd, outq, pins, sink⟩ := s
  unfold finalizeCase
  cases phase <;>
    simp [finP0, finP3, finP1, finP4, finP2, State.padIfOn_eq, State.emit5, State.push, finalSymbol, padCount]

/-- A CONSUME pushes one or two symbols (R71). -/
theorem consumeSymbols_length (p : Phase) (c b : Byte) :
    1 ≤ (consumeSymbols p c b).length ∧ (consumeSymbols p c b).length ≤ 2 := by
  cases p <;> simp [consumeSymbols]

/-- A FINALIZE pushes at most one symbol and six pad characters (R80). -/
theorem finalSymbol_length (p : Phase) (c : Byte) : (finalSymbol p c).length + padCount p ≤ 7 := by
  cases p <;> simp [finalSymbol, padCount]

/-- The kept carry has no bit at or above the new phase (R22). -/
theorem keptCarry_lt (p : Phase) (b : Byte) : (keptCarry p b).toNat < 2 ^ (nextPhase p).value := by
  cases p <;> simp [keptCarry, zext8, nextPhase, Phase.value, Phase.code] <;> omega

end Sys2Proof.Machine
end

