-- ==== Sys2Proof/Laws/Exec.lean ====
section
/-! SUPPORT. What each command can do: if it answers `next t`, then one of these cases holds. -/

namespace Sys2Proof.Machine

/-- CONSUME: a `Seq` fault outside a stream, its phase case in one. -/
theorem execConsume_next {b : Byte} {s t : State} (h : execConsume b s = .next t) :
    (s.life ≠ .active ∧ t = s.raiseFault .seq (encode (.consume b))) ∨
    (s.life = .active ∧ (consumeCase b s).qcount ≤ Config.outqDepth ∧ t = consumeCase b s) := by
  unfold execConsume at h
  split at h
  · exact .inr ⟨‹_›, commit_next_iff.mp h⟩
  · exact .inl ⟨‹_›, by simpa [eq_comm] using h⟩

/-- FINALIZE: a `Seq` fault outside a stream, its phase case and the end of the stream in one. -/
theorem execFinalize_next {s t : State} (h : execFinalize s = .next t) :
    (s.life ≠ .active ∧ t = s.raiseFault .seq (encode .finalize)) ∨
    (s.life = .active ∧ (finalizeCase s).qcount ≤ Config.outqDepth ∧
      t = (((finalizeCase s).setPhase .p0).setCarry 0x00#8).setLife .spent) := by
  unfold execFinalize at h
  split at h
  · exact .inr ⟨‹_›, commit_next_iff.mp h⟩
  · exact .inl ⟨‹_›, by simpa [eq_comm] using h⟩

/-- INIT: a `Seq` fault in a stream, a new stream outside one. -/
theorem execInit_next {l p : Bool} {s t : State} (h : execInit l p s = .next t) :
    (s.life = .active ∧ t = s.raiseFault .seq (encode (.init l p))) ∨
    (s.life ≠ .active ∧ t = (((s.setConfig l p).setPhase .p0).setCarry 0x00#8).setLife .active) := by
  unfold execInit at h
  split at h
  · exact .inl ⟨‹_›, by simpa [eq_comm] using h⟩
  · exact .inr ⟨‹_›, by simpa [eq_comm] using h⟩

/-- Everything a command can do: one refusal, and one effect per command. -/
theorem exec_cases {i : Instr} {s t : State} (h : exec i s = .next t) :
    (lifeAdmits s.life i = false ∧ t = s.raiseFault .seq (encode i)) ∨
    (∃ b, i = .consume b ∧ s.life = .active ∧ t = consumeCase b s ∧ t.qcount ≤ Config.outqDepth) ∨
    (i = .finalize ∧ s.life = .active ∧ (finalizeCase s).qcount ≤ Config.outqDepth ∧
      t = (((finalizeCase s).setPhase .p0).setCarry 0x00#8).setLife .spent) ∨
    (∃ l p, i = .init l p ∧ s.life ≠ .active ∧
      t = (((s.setConfig l p).setPhase .p0).setCarry 0x00#8).setLife .active) := by
  cases i with
  | consume b =>
    obtain ⟨hl, rfl⟩ | ⟨hl, hq, rfl⟩ := execConsume_next h
    · exact .inl ⟨by cases hs : s.life <;> simp_all [lifeAdmits], rfl⟩
    · exact .inr (.inl ⟨b, rfl, hl, rfl, hq⟩)
  | finalize =>
    obtain ⟨hl, rfl⟩ | ⟨hl, hq, rfl⟩ := execFinalize_next h
    · exact .inl ⟨by cases hs : s.life <;> simp_all [lifeAdmits], rfl⟩
    · exact .inr (.inr (.inl ⟨rfl, hl, hq, rfl⟩))
  | init l p =>
    obtain ⟨hl, rfl⟩ | ⟨hl, rfl⟩ := execInit_next h
    · exact .inl ⟨by simp [hl, lifeAdmits], rfl⟩
    · exact .inr (.inr (.inr ⟨l, p, rfl, hl, rfl⟩))

end Sys2Proof.Machine
end

