-- ==== Sys2Proof/Laws/PerInstr.lean ====
section
/-! SUPPORT. Statements made per command: each command's word lies in its row of the opcode map. -/

namespace Sys2Proof.Laws.OpcodeRow

open Sys2Proof Sys2Proof.Machine

/-- The command is well formed, and its word is one of its opcode row: `(w & mask) = match`
(spec/30_encoding.md section 4). -/
def Statement (i : Instr) : Prop := i.wf = true ∧ encode i &&& (opcodeRow i).2 = (opcodeRow i).1

theorem consume (b : Byte) : Statement (.consume b) := by
  refine ⟨by simp [Instr.wf, byteInRange]; omega, ?_⟩
  revert b
  decide

theorem finalize : Statement .finalize := ⟨by decide, by decide⟩

theorem init (lower pad : Bool) : Statement (.init lower pad) := by
  cases lower <;> cases pad <;> exact ⟨by decide, by decide⟩

end Sys2Proof.Laws.OpcodeRow
end

