-- ==== Sys2Proof/Laws/Step.lean ====
section
/-! SUPPORT. What one edge can do: hold, reset, accept, drain or nothing. -/

namespace Sys2Proof.Machine

/-- The state an edge acts on: the edge itself is used up. -/
abbrev State.afterEdge (s : State) (rest : List Pins) : State := { s with pins := rest }

theorem step_no_edge {s : State} (h : s.pins = []) : step s = .next s := by
  simp [step, edgeOrHold, h]

theorem step_edge {s : State} {e : Pins} {rest : List Pins} (h : s.pins = e :: rest) :
    step s = clockEdge e (s.afterEdge rest) := by
  simp [step, edgeOrHold, h]

/-- A reset edge, whatever the other ports hold (R103, R116). -/
theorem clockEdge_reset {e : Pins} {s : State} (h : e.rstN = false) : clockEdge e s = .next s.resetEdge := by
  simp [clockEdge, h]

/-- An accepting edge (R40). -/
theorem clockEdge_accept {e : Pins} {s : State} (h : accepts e s = true) :
    clockEdge e s = accept e.cmdWord s := by
  have hr : e.rstN = true := by simp [accepts, State.cmdReady] at h; exact h.2.1
  simp [clockEdge, hr, h]

/-- An accept needs an empty queue (R39). -/
theorem accepts_outq {e : Pins} {s : State} (h : accepts e s = true) : s.outq = [] := by
  simp [accepts, State.cmdReady, State.qcount] at h; exact h.2.2

/-- A drain needs a character (R41). -/
theorem drains_outq {e : Pins} {s : State} (h : drains e s = true) : s.outq ≠ [] := by
  simp [drains, State.outValid, State.qcount] at h; exact h.1.2

/-- Everything one step can do. -/
theorem step_cases {s t : State} (h : step s = .next t) :
    (s.pins = [] ∧ t = s) ∨
    ∃ e rest, s.pins = e :: rest ∧
      ((e.rstN = false ∧ t = (s.afterEdge rest).resetEdge) ∨
       (accepts e (s.afterEdge rest) = true ∧ accept e.cmdWord (s.afterEdge rest) = .next t) ∨
       (e.rstN = true ∧ drains e (s.afterEdge rest) = true ∧ t = (s.afterEdge rest).drain) ∨
       (e.rstN = true ∧ accepts e (s.afterEdge rest) = false ∧ drains e (s.afterEdge rest) = false ∧
        t = s.afterEdge rest)) := by
  cases hp : s.pins with
  | nil => rw [step_no_edge hp] at h; exact .inl ⟨rfl, by simpa [eq_comm] using h⟩
  | cons e rest =>
    refine .inr ⟨e, rest, rfl, ?_⟩
    rw [step_edge hp] at h
    unfold clockEdge at h
    split at h
    · exact .inl ⟨‹_›, by simpa [eq_comm] using h⟩
    · split at h
      · exact .inr (.inl ⟨‹_›, h⟩)
      · split at h
        · exact .inr (.inr (.inl ⟨by simpa using ‹¬e.rstN = false›, ‹_›, by simpa [eq_comm] using h⟩))
        · exact .inr (.inr (.inr ⟨by simpa using ‹¬e.rstN = false›, by simpa using ‹¬accepts _ _ = true›,
            by simpa using ‹¬drains _ _ = true›, by simpa [eq_comm] using h⟩))

/-- Everything an accept can do: an `Ill` fault, or the decoded command. -/
theorem accept_cases {w : CmdWord} {s t : State} (h : accept w s = .next t) :
    (∃ r, decode w = .error r ∧ t = s.raiseFault .ill w) ∨ (∃ i, decode w = .ok i ∧ exec i s = .next t) := by
  unfold accept at h
  split at h
  · exact .inr ⟨_, ‹_›, h⟩
  · exact .inl ⟨_, ‹_›, by simpa [execIllegal, eq_comm] using h⟩

/-- The encoder is untouched: its phase, carry, configuration and life state, and the characters sent or queued. -/
structure SameEncoder (s t : State) : Prop where
  phase : t.phase = s.phase
  carry : t.carry = s.carry
  cfgLower : t.cfgLower = s.cfgLower
  cfgPad : t.cfgPad = s.cfgPad
  life : t.life = s.life
  emitted : t.emitted = s.emitted

/-- A step without reset carries out no command and leaves the encoder untouched, or carries out the one command
`effectiveNow` names. -/
theorem step_effective_cases {s t : State} (hn : NoResetIn 1 s) (h : step s = .next t) :
    (effectiveNow s = none ∧ SameEncoder s t ∧ t.pins = s.pins.tail) ∨
    (∃ e rest i, s.pins = e :: rest ∧ effectiveNow s = some i ∧ lifeAdmits s.life i = true ∧ s.outq = [] ∧
      exec i (s.afterEdge rest) = .next t) := by
  obtain ⟨hp, rfl⟩ | ⟨e, rest, hp, hc⟩ := step_cases h
  · exact .inl ⟨by simp [effectiveNow, acceptedNow, hp], ⟨rfl, rfl, rfl, rfl, rfl, rfl⟩, by simp [hp]⟩
  have he : e.rstN = true := hn e (by simp [hp])
  obtain ⟨h1, _⟩ | ⟨ha, hacc⟩ | ⟨_, hd, rfl⟩ | ⟨_, ha, _, rfl⟩ := hc
  · simp [he] at h1
  · have ha' : accepts e s = true := ha
    obtain ⟨r, hr, rfl⟩ | ⟨i, hi, hx⟩ := accept_cases hacc
    · exact .inl ⟨by simp [effectiveNow, acceptedNow, hp, ha', hr], ⟨rfl, rfl, rfl, rfl, rfl, rfl⟩, by simp [hp]⟩
    · by_cases hl : lifeAdmits s.life i = true
      · exact .inr ⟨e, rest, i, hp, by simp [effectiveNow, acceptedNow, hp, ha', hi, hl], hl, accepts_outq ha', hx⟩
      · refine .inl ⟨by simp [effectiveNow, acceptedNow, hp, ha', hi, hl], ?_⟩
        obtain ⟨_, rfl⟩ | ⟨b, rfl, h2, _⟩ | ⟨rfl, h2, _⟩ | ⟨l, p, rfl, h2, _⟩ := exec_cases hx
        · exact ⟨⟨rfl, rfl, rfl, rfl, rfl, rfl⟩, by simp [hp]⟩
        · simp_all [lifeAdmits]
        · simp_all [lifeAdmits]
        · cases h3 : s.life <;> simp_all [lifeAdmits]
  · have hna : ¬ accepts e s = true := fun h => drains_outq hd (accepts_outq h)
    refine .inl ⟨by simp [effectiveNow, acceptedNow, hp, hna], ⟨?_, ?_, ?_, ?_, ?_, State.drain_emitted _⟩, ?_⟩ <;>
      simp [hp]
  · have hna : accepts e s = false := ha
    exact .inl ⟨by simp [effectiveNow, acceptedNow, hp, hna], ⟨rfl, rfl, rfl, rfl, rfl, rfl⟩, by simp [hp]⟩

/-- `stepN` is the host's run of the machine. -/
theorem stepN_eq_run (n : Nat) (s : State) : stepN n s = Sys2Proof.core.run n s := by
  induction n generalizing s with
  | zero => rfl
  | succ n ih =>
    have hs : Sys2Proof.core.step s = step s := rfl
    simp only [stepN, Host.Core.run, hs]
    cases step s <;> first | exact ih _ | rfl

/-- A run of steps peels into its first step and the rest. -/
theorem stepN_succ {n : Nat} {s t : State} (h : stepN (n + 1) s = .next t) :
    ∃ u, step s = .next u ∧ stepN n u = .next t := by
  unfold stepN at h
  split at h
  · exact ⟨_, ‹_›, h⟩
  · cases h
  · cases h

end Sys2Proof.Machine
end

