-- ==== Sys2Proof/Tests/Slice0.lean ====
section
/-! SUPPORT. Tests of the model: expected results are the spec's own vectors (spec/95_test_vectors.md and the worked
examples of each rule). After them, a witness for the hypotheses of every statement that has any. -/

namespace Sys2Proof.Tests

open Sys2Proof Sys2Proof.Machine

/-! ### Helpers -/

/-- A state in life state `l` and phase `p` with carry `c`, the rest as after reset. -/
def at_ (l : Life) (p : Phase) (c : Byte) (lower pad : Bool) : State :=
  { State.reset with life := l, phase := p, carry := c, cfgLower := lower, cfgPad := pad }

/-- A stream is open in phase `p` with carry `c`, upper case, padding on. -/
def openAt (p : Phase) (c : Byte) : State := at_ .active p c false true

/-- The codes of a text. -/
def codes (text : String) : List Byte := text.toList.map fun c => BitVec.ofNat 8 c.toNat

/-- The next state's fields, when there is one, satisfy `p`. -/
def nextIs (o : Host.Outcome State Fault Refusal) (p : State → Bool) : Bool :=
  match o with
  | .next t => p t
  | .fault _ => false
  | .refused _ => false

/-! ### Well-formedness smoke tests -/

theorem test_wf_refuses_byte_256 : byteInRange 256 = false ∧ byteInRange 255 = true := by decide
theorem test_wf_refuses_word_400 : wordInRange 0x400 = false ∧ wordInRange 0x3FF = true := by decide
theorem test_wf_refuses_lines :
    (AsmLine.consume 256).wf = false ∧ (AsmLine.word 0x400).wf = false ∧ (AsmLine.bytes []).wf = false ∧
    (AsmLine.bytes [0, 256]).wf = false ∧ (AsmLine.stream true true [1, 300]).wf = false := by decide
theorem test_wf_accepts_commands :
    (Instr.consume 0xFF#8).wf = true ∧ Instr.finalize.wf = true ∧ (Instr.init true true).wf = true := by decide

/-! ### Decoding (spec/95_test_vectors.md section 2.4; words written out from spec/30_encoding.md) -/

theorem test_decode_consume :
    decode 0b0100000000#10 = .ok (.consume 0x00#8) ∧ decode 0b0110100101#10 = .ok (.consume 0xA5#8) ∧
    decode 0b0111111111#10 = .ok (.consume 0xFF#8) := by decide
theorem test_decode_finalize : decode 0b1000000000#10 = .ok .finalize := by decide
theorem test_decode_init :
    decode 0b1100000000#10 = .ok (.init false false) ∧ decode 0b1100000001#10 = .ok (.init true false) ∧
    decode 0b1100000010#10 = .ok (.init false true) ∧ decode 0b1100000011#10 = .ok (.init true true) := by decide
theorem test_decode_illegal :
    [0x000#10, 0x0A5#10, 0x0FF#10].all (fun w => decode w == .error .opZero) = true ∧
    [0x201#10, 0x280#10, 0x2FF#10].all (fun w => decode w == .error .finalizeArg) = true ∧
    [0x304#10, 0x308#10, 0x380#10, 0x3FC#10, 0x3FF#10].all (fun w => decode w == .error .initArg) = true := by decide
theorem test_encode : encode (.consume 0x5A#8) = 0x15A#10 ∧ encode .finalize = 0x200#10 ∧
    encode (.init true false) = 0x301#10 ∧ encode (.init false true) = 0x302#10 := by decide
theorem test_table_word :
    decodeTableWord 16 0x100 = some (.consume 0#8) ∧ decodeTableWord 16 0x200 = some .finalize ∧
    decodeTableWord 10 0x303 = some (.init true true) ∧ decodeTableWord 16 0x0A5 = none ∧
    decodeTableWord 16 0x500 = none := by decide

/-! ### CONSUME (section 2.1) -/

/-- Rows `(phase, carry, b, chars, carry after, phase after)` of section 2.1. -/
def consumeRows : List (Phase × Byte × Byte × String × Byte × Phase) :=
  [(.p0, 0x00, 0xA5, "U", 0x05, .p3), (.p0, 0x00, 0xFF, "7", 0x07, .p3), (.p0, 0x00, 0x80, "Q", 0x00, .p3)] ++
  [(.p3, 0x05, 0x5A, "VN", 0x00, .p1), (.p3, 0x07, 0xA5, "6S", 0x01, .p1), (.p3, 0x00, 0xFF, "D7", 0x01, .p1)] ++
  [(.p1, 0x01, 0xA5, "2", 0x05, .p4), (.p1, 0x00, 0x5A, "F", 0x0A, .p4), (.p1, 0x01, 0x00, "Q", 0x00, .p4)] ++
  [(.p4, 0x05, 0xFF, "L7", 0x03, .p2), (.p4, 0x0F, 0xA5, "7J", 0x01, .p2), (.p4, 0x00, 0x80, "BA", 0x00, .p2)] ++
  [(.p2, 0x03, 0x5A, "22", 0x00, .p0), (.p2, 0x01, 0xA5, "NF", 0x00, .p0), (.p2, 0x00, 0x01, "AB", 0x00, .p0)]

theorem test_consume_vectors : consumeRows.all (fun (p, c, b, text, c', p') =>
    nextIs (exec (.consume b) (openAt p c)) fun t =>
      t.outq == codes text && t.carry == c' && t.phase == p' && t.life == .active) = true := by decide

theorem test_consume_outside_a_stream :
    nextIs (exec (.consume 0x41#8) State.reset) (fun t =>
      t.errSeq && !t.errIll && t.ecmd == 0x141#10 && t.outq == [] && t.phase == .p0) = true ∧
    nextIs (exec (.consume 0x00#8) (at_ .spent .p0 0 false true)) (fun t =>
      t.errSeq && t.outq == [] && t.life == .spent) = true := by decide

/-! ### FINALIZE (section 2.2) -/

/-- Rows `(phase, carry, cfg_lower, cfg_pad, chars)` of section 2.2. -/
def finalizeRows : List (Phase × Byte × Bool × Bool × String) :=
  [(.p0, 0x00, false, true, ""), (.p0, 0x00, true, true, ""), (.p3, 0x07, false, true, "4======"),
   (.p3, 0x05, true, true, "u======"), (.p3, 0x05, false, false, "U")] ++
  [(.p1, 0x01, false, true, "Q===="), (.p1, 0x01, true, true, "q===="), (.p1, 0x00, false, false, "A")] ++
  [(.p4, 0x0F, false, true, "6==="), (.p4, 0x05, true, true, "k==="), (.p4, 0x05, false, false, "K")] ++
  [(.p2, 0x03, false, true, "Y="), (.p2, 0x01, true, true, "i="), (.p2, 0x03, false, false, "Y")]

theorem test_finalize_vectors : finalizeRows.all (fun (p, c, lower, pad, text) =>
    nextIs (exec .finalize (at_ .active p c lower pad)) fun t =>
      t.outq == codes text && t.carry == 0 && t.phase == .p0 && t.life == .spent) = true := by decide

theorem test_finalize_outside_a_stream :
    nextIs (exec .finalize State.reset) (fun t => t.errSeq && t.ecmd == 0x200#10 && t.life == .idle) = true ∧
    nextIs (exec .finalize (at_ .spent .p0 0 false true)) (fun t => t.errSeq && t.outq == []) = true := by decide

/-! ### INIT and illegal words (section 2.5) -/

theorem test_init_vectors :
    nextIs (exec (.init false true) State.reset) (fun t => t.life == .active && t.status == 0x00000048#32) = true ∧
    nextIs (exec (.init true false) State.reset) (fun t => t.life == .active && t.status == 0x00000028#32) = true ∧
    nextIs (exec (.init true false) (at_ .spent .p0 0 false true)) (fun t =>
      t.life == .active && t.cfgLower && !t.cfgPad) = true := by decide

theorem test_init_in_a_stream :
    nextIs (exec (.init true true) (openAt .p3 0x05#8)) (fun t =>
      t.errSeq && t.ecmd == 0x303#10 && !t.cfgLower && t.cfgPad && t.phase == .p3 && t.carry == 0x05#8) = true := by
  decide

theorem test_illegal_words :
    nextIs (accept 0x304#10 State.reset) (fun t => t.errIll && t.ecmd == 0x304#10 && t.life == .idle) = true ∧
    nextIs (accept 0x201#10 (openAt .p0 0)) (fun t => t.errIll && !t.errSeq && t.life == .active) = true ∧
    nextIs (accept 0x0A5#10 { State.reset with errSeq := true, ecmd := 0x141#10 }) (fun t =>
      t.errIll && t.errSeq && t.ecmd == 0x141#10) = true := by decide

/-! ### Emitter, status, ports, assembler -/

theorem test_emitter_bounds :
    [(0, 'A', 'a'), (25, 'Z', 'z'), (26, '2', '2'), (31, '7', '7')].all (fun (v, u, l) =>
      symbolChar false (BitVec.ofNat 5 v) == BitVec.ofNat 8 u.toNat &&
      symbolChar true (BitVec.ofNat 5 v) == BitVec.ofNat 8 l.toNat) = true := by decide

/-- The last row of program P5 (section 3). -/
theorem test_status_p5 :
    State.status { State.reset with life := .spent, cfgPad := true, errIll := true, errSeq := true, ecmd := 0x141#10 } =
      0x014103D0#32 := by decide

/-- A drain delivers the oldest character, and a reset edge discards the queue but not what was delivered. -/
theorem test_drain_and_reset :
    nextIs (step { openAt .p3 0 with outq := codes "2W", sink := codes "3", pins := [offerEdge none] })
      (fun t => t.outq == codes "W" && t.sink == codes "32") = true ∧
    nextIs (step { openAt .p3 0 with
        outq := codes "2W", sink := codes "3", pins := [{ offerEdge (some 0x1A5#10) with rstN := false }] })
      (fun t => t.outq == [] && t.sink == codes "3" && t.life == .idle) = true := by decide

theorem test_fetch_word :
    nextIs (step (State.reset.withFetchWord 16 0x302)) (fun t => t.life == .active && t.cfgPad) = true ∧
    nextIs (step ({ openAt .p0 0 with outq := codes "A" }.withFetchWord 16 0x1A5))
      (fun t => t.outq == codes "U" && t.sink == codes "A") = true := by decide

theorem test_assembler :
    assembleLine "INIT upper, pad        ; 0x302".toList = some [0x302#10] ∧
    assembleLine "consume 0xDE".toList = some [0x1DE#10] ∧ assembleLine "CONSUME 222".toList = some [0x1DE#10] ∧
    assembleLine "Finalize".toList = some [0x200#10] ∧ assembleLine ".word 0x0A5".toList = some [0x0A5#10] ∧
    assembleLine "STREAM lower, nopad, 0xDE, 0xAD".toList = some [0x301#10, 0x1DE#10, 0x1AD#10, 0x200#10] ∧
    assembleLine "STREAM upper, pad".toList = some [0x302#10, 0x200#10] := by decide

theorem test_assembler_refuses :
    assembleLine "CONSUME 256".toList = none ∧ assembleLine ".word 0x400".toList = none ∧
    assembleLine "BYTES".toList = none ∧ assembleLine "INIT pad, upper".toList = none ∧
    assembleLine "FINALIZE 0".toList = none := by decide

/-- Rows of section 1, section 2.6 and section 4: the Base32 text the claims speak of. -/
theorem test_base32_text :
    base32 false true [] = [] ∧ base32 false true [0x00#8] = codes "AA======" ∧
    base32 false true [0xFF#8] = codes "74======" ∧
    base32 true false [0xDE#8, 0xAD#8, 0xBE#8, 0xEF#8] = codes "32w353y" ∧
    base32 false true [0x0B#8, 0x30#8, 0x55#8, 0x7A#8, 0x9F#8] = codes "BMYFK6U7" ∧
    base32 false true [0x66#8, 0x6F#8, 0x6F#8, 0x62#8, 0x61#8, 0x72#8] = codes "MZXW6YTBOI======" := by decide

/-! ### Witnesses: the hypotheses of each statement can be met -/

/-- An edge that offers `w`, with the sink ready or not. -/
def offering (w : CmdWord) (ready : Bool) : Pins :=
  { rstN := true, cmdValid := true, cmdWord := w, outReady := ready }

/-- An idle edge, with the sink ready or not. -/
def idleEdge (ready : Bool) : Pins := { rstN := true, cmdValid := false, cmdWord := 0#10, outReady := ready }

/-- An open stream with `c` queued and the edge `e` to come. -/
def queued (c : String) (e : Pins) : State := { openAt .p3 0x07#8 with outq := codes c, pins := [e] }

theorem witness_DecodeAndEncodeAgree :
    (Instr.consume 0xFF#8).wf = true ∧ decode 0x303#10 = .ok (.init true true) := by decide

theorem witness_DecodeFollowsTheOpcodeMap :
    0x1FF#10 &&& 0x300#10 = 0x100#10 ∧ 0x200#10 &&& 0x3FF#10 = 0x200#10 ∧ 0x303#10 &&& 0x3FC#10 = 0x300#10 ∧
    (0x304#10 &&& 0x300#10 ≠ 0x100#10 ∧ 0x304#10 &&& 0x3FF#10 ≠ 0x200#10 ∧ 0x304#10 &&& 0x3FC#10 ≠ 0x300#10) := by
  decide

theorem witness_ResetEdgeRestoresEveryRegister :
    (queued "A" { offering 0x1FF#10 true with rstN := false }).pins =
        [{ offering 0x1FF#10 true with rstN := false }] ∧
      ({ offering 0x1FF#10 true with rstN := false } : Pins).rstN = false := by decide

theorem witness_StatusWordShowsTheRegisters :
    QueueFits (queued "4======" (idleEdge true)) ∧ (queued "4======" (idleEdge true)).qcount = 7 := by decide

theorem witness_StepRunsTheDecodedCommand :
    let e := offering 0x1A5#10 false
    let s := { openAt .p0 0 with pins := [e] }
    s.pins = e :: [] ∧ e.rstN = true ∧ e.cmdValid = true ∧ s.outq = [] ∧
      decode e.cmdWord = .ok (.consume 0xA5#8) := by decide

theorem witness_EveryEdgeDoesOneThing :
    State.reset.pins = [] ∧
    ((idleEdge true).rstN = true ∧ (idleEdge true).cmdValid = false ∧ (openAt .p0 0).outq = []) ∧
    ((offering 0#10 true).rstN = true ∧ (offering 0#10 true).cmdValid = true) ∧
    ((queued "A" (idleEdge true)).outq ≠ [] ∧ (idleEdge true).outReady = true) ∧
    (idleEdge false).outReady = false ∧ ({ idleEdge true with rstN := false } : Pins).rstN = false := by decide

theorem witness_DrainDeliversTheOldestCharacter :
    (queued "2W" (idleEdge true)).outValid = true ∧ State.reset.outValid = false ∧
    (queued "2W" (idleEdge true)).pins = [idleEdge true] ∧ (idleEdge true).rstN = true ∧
    (idleEdge true).outReady = true ∧ (queued "2W" (idleEdge true)).outq = 0x32#8 :: [0x57#8] := by decide

theorem witness_WordIsSampledOnlyAtTheAcceptingEdge :
    accepts (offering 0x1FF#10 true) (queued "A" (idleEdge true)) = false ∧
    accepts (idleEdge true) (openAt .p0 0) = false ∧
    (queued "A" (idleEdge true)).cmdReady (idleEdge true).rstN = false ∧
    accepts (offering 0x1FF#10 true) (openAt .p0 0) = true := by decide

theorem witness_ConsumeInEachPhase : [Phase.p0, .p3, .p1, .p4, .p2].all (fun p =>
    (openAt p 0x0F#8).life == .active && (openAt p 0x0F#8).phase == p && (openAt p 0x0F#8).outq == []) = true := by
  decide

theorem witness_FinalizeInEachPhase : [true, false].all (fun pad => [Phase.p0, .p3, .p1, .p4, .p2].all fun p =>
    (at_ .active p 0x01#8 true pad).life == .active && (at_ .active p 0x01#8 true pad).phase == p &&
    (at_ .active p 0x01#8 true pad).outq == []) = true := by decide

theorem witness_ConsumeConservesTheBits :
    (openAt .p4 0x0F#8).life = .active ∧ ∃ t, exec (.consume 0xA5#8) (openAt .p4 0x0F#8) = .next t :=
  ⟨rfl, _, rfl⟩

/-- The two carries agree in the significant bit of phase 1 alone. -/
theorem witness_ConsumeDependsOnlyOnPhaseCarryByteAndCase :
    let s := openAt .p1 0x01#8
    let u := { openAt .p1 0xF1#8 with errIll := true, cfgPad := false }
    s.life = .active ∧ u.life = .active ∧ s.outq = [] ∧ u.outq = [] ∧ s.phase = u.phase ∧
      carryBits s = carryBits u ∧ s.cfgLower = u.cfgLower := by decide

/-- Five bytes from phase 0, with a refused INIT and an illegal word between them. -/
def fiveBytes : State :=
  { openAt .p0 0 with pins :=
      [offering 0x1FF#10 true, idleEdge true, offering 0x300#10 true, offering 0x1FF#10 true, idleEdge true,
       idleEdge true, offering 0x0A5#10 true, offering 0x1FF#10 true, idleEdge true, offering 0x1FF#10 true,
       idleEdge true, idleEdge true, offering 0x1FF#10 true] }

theorem witness_ConsumePushesOneOrTwoSymbols :
    fiveBytes.life = .active ∧ fiveBytes.phase = .p0 ∧ NoResetIn 13 fiveBytes ∧
    effective 13 fiveBytes = (List.replicate 5 0xFF#8).map .consume ∧ (∃ t, stepN 13 fiveBytes = .next t) ∧
    ∃ t, exec (.consume 0x00#8) (openAt .p2 0x03#8) = .next t :=
  ⟨rfl, rfl, by decide, by decide, ⟨_, rfl⟩, ⟨_, rfl⟩⟩

/-- One byte after INIT, its character drained, with a refused INIT before the byte. -/
def oneByte (lower pad : Bool) : State :=
  { at_ .spent .p0 0 false false with
      errSeq := true, sink := codes "XY"
      pins := [offer (.init lower pad), offering 0x302#10 true, offer (.consume 0xFF#8), idleEdge true, offer .finalize] }

theorem witness_open_stream :
    NoResetIn 4 (oneByte false true) ∧ effective 4 (oneByte false true) = openStream false true [0xFF#8] ∧
    ∃ t, stepN 4 (oneByte false true) = .next t ∧ t.outq = [] :=
  ⟨by decide, by decide, _, rfl, rfl⟩

/-- PhaseFollowsTheCycle, PadCountsAreExact and OpenStreamEmitsTheGroupsOfItsBits. -/
theorem witness_PadCountsAreExact :
    1 ≤ [0xFF#8].length ∧ [0xFF#8].length ≤ 4 ∧ NoResetIn 4 (oneByte true false) ∧
    effective 4 (oneByte true false) = openStream true false [0xFF#8] ∧
    ∃ t, stepN 4 (oneByte true false) = .next t ∧ t.outq = [] :=
  ⟨by decide, by decide, by decide, by decide, _, rfl, rfl⟩

theorem witness_PhaseFollowsTheCycle : (openAt .p2 0).life = .active ∧
    ∃ t, exec (.consume 0xFF#8) (openAt .p2 0) = .next t := ⟨rfl, _, rfl⟩

/-- A stream of no bytes: 5 divides its length. -/
theorem witness_WholeCyclesNeedNoFinalSymbol :
    NoResetIn 1 (oneByte true true) ∧ effective 1 (oneByte true true) = openStream true true [] ∧
    5 ∣ ([] : List Byte).length ∧ ∃ t, stepN 1 (oneByte true true) = .next t ∧ t.outq = [] :=
  ⟨by decide, by decide, by decide, _, rfl, rfl⟩

/-- WholeStreamEmitsItsBase32Text, StreamLengthIsFixedByTheByteCount, StreamOutputDependsOnlyOnItsCommands. -/
theorem witness_whole_stream :
    NoResetIn 5 (oneByte false true) ∧ effective 5 (oneByte false true) = wholeStream false true [0xFF#8] ∧
    (∃ t, stepN 5 (oneByte false true) = .next t ∧ t.emitted = codes "XY74======") ∧
    ∃ t, exec .finalize (openAt .p3 0x07#8) = .next t :=
  ⟨by decide, by decide, ⟨_, rfl, by decide⟩, _, rfl⟩

theorem witness_CaseChangesOnlyLetters :
    NoResetIn 5 (oneByte false true) ∧ NoResetIn 5 (oneByte true true) ∧
    effective 5 (oneByte false true) = wholeStream false true [0xFF#8] ∧
    effective 5 (oneByte true true) = wholeStream true true [0xFF#8] ∧
    ∃ t t', stepN 5 (oneByte false true) = .next t ∧ stepN 5 (oneByte true true) = .next t' ∧
      t.emitted = (oneByte false true).emitted ++ codes "74======" ∧
      t'.emitted = (oneByte true true).emitted ++ codes "74======" :=
  ⟨by decide, by decide, by decide, by decide, _, _, rfl, rfl, by decide, by decide⟩

theorem witness_InitOpensAStream : State.reset.life ≠ .active ∧ (openAt .p0 0).life = .active := by decide

theorem witness_FaultRecordingChangesOnlyTheRecord :
    (State.reset.errIll = false ∧ State.reset.errSeq = false) ∧ (oneByte true true).errSeq = true := by decide

theorem witness_CommandsOutOfOrderRaiseSeq :
    State.reset.life = .idle ∧ (oneByte true true).life = .spent ∧ (openAt .p0 0).life = .active := by decide

theorem witness_IllegalWordRaisesIll :
    let e := offering 0x3FF#10 false
    let s := { openAt .p4 0x0F#8 with pins := [e] }
    s.pins = e :: [] ∧ e.rstN = true ∧ e.cmdValid = true ∧ s.outq = [] ∧ decode e.cmdWord = .error .initArg := by
  decide

theorem witness_OneCausePerCommand :
    (∃ t, accept 0x0FF#10 State.reset = .next t) ∧ decode 0x0FF#10 = .error .opZero ∧
    (∃ t, accept 0x200#10 State.reset = .next t) ∧ decode 0x200#10 = .ok .finalize :=
  ⟨⟨_, rfl⟩, by decide, ⟨_, rfl⟩, by decide⟩

theorem witness_FaultsArePrecise :
    let s := { openAt .p4 0x0F#8 with pins := [offering 0x300#10 true] }
    acceptedNow s = some 0x300#10 ∧ effectiveNow s = none := by decide

/-- FaultRecordIsStickyUntilReset: both flags already 1, and another illegal word. -/
theorem witness_FaultRecordIsStickyUntilReset :
    let s := { openAt .p0 0 with errIll := true, errSeq := true, ecmd := 0x141#10, pins := [offering 0x000#10 true] }
    NoResetIn 1 s ∧ (∃ t, step s = .next t) ∧ s.errIll = true ∧ s.errSeq = true :=
  ⟨by decide, ⟨_, rfl⟩, rfl, rfl⟩

theorem witness_LifeFollowsTheTable : [Life.idle, .active, .spent].all (fun l =>
    [0x300#10, 0x1FF#10, 0x200#10, 0x0A5#10].all fun w => nextIs (accept w (at_ l .p0 0 false false)) fun _ => true) =
      true := by decide

/-- OnlyInitWritesTheConfiguration and PhaseChangesOnlyInAStream: an INIT that writes both bits. -/
theorem witness_OnlyInitWritesTheConfiguration :
    let s := { at_ .spent .p0 0 false false with pins := [offering 0x303#10 true] }
    Inv s ∧ NoResetIn 1 s ∧ effectiveNow s = some (.init true true) ∧
      ∃ t, step s = .next t ∧ t.cfgLower ≠ s.cfgLower ∧ t.cfgPad ≠ s.cfgPad :=
  ⟨by decide, by decide, by decide, _, rfl, by decide, by decide⟩

/-- PhaseChangesOnlyInAStream: a FINALIZE that moves the phase and leaves the stream. -/
theorem witness_PhaseChangesOnlyInAStream :
    let s := { openAt .p3 0x07#8 with pins := [offering 0x200#10 true] }
    Inv s ∧ NoResetIn 1 s ∧ effectiveNow s = some .finalize ∧
      ∃ t, step s = .next t ∧ t.phase ≠ s.phase ∧ t.life ≠ .active :=
  ⟨by decide, by decide, by decide, _, rfl, by decide, by decide⟩

theorem witness_CommandsChangeNothingElse :
    (∃ t, exec (.consume 0xFF#8) (openAt .p3 0x07#8) = .next t) ∧ (∃ t, exec .finalize (openAt .p3 0x07#8) = .next t) ∧
    (∃ t, exec (.init true true) State.reset = .next t) ∧ State.reset.life ≠ .active ∧
    (∃ t, exec .finalize State.reset = .next t) ∧ lifeAdmits State.reset.life .finalize = false :=
  ⟨⟨_, rfl⟩, ⟨_, rfl⟩, ⟨_, rfl⟩, by decide, ⟨_, rfl⟩, by decide⟩

theorem witness_AlphabetAndCaseFold : (25#5).toNat ≤ 25 ∧ 26 ≤ (26#5).toNat ∧ 26 ≤ (31#5).toNat := by decide

theorem witness_OutputCodesStayInTheAlphabet :
    OutputCodes (queued "4======" (idleEdge true)) ∧ (queued "4======" (idleEdge true)).outValid = true ∧
    ∃ t, step (queued "4======" (idleEdge true)) = .next t :=
  ⟨by decide, by decide, _, rfl⟩

/-- EveryStepKeepsTheInvariants and NoStepStopsTheMachine. -/
theorem witness_EveryStepKeepsTheInvariants :
    let s := { openAt .p4 0x0F#8 with pins := [offering 0x1A5#10 true] }
    Inv s ∧ QueueFits s ∧ ∃ t, step s = .next t ∧ t ≠ s :=
  ⟨by decide, by decide, _, rfl, by decide⟩

theorem witness_AcceptedCommandsComplete : (openAt .p3 0x07#8).outq = [] ∧ State.reset.outq = [] := by decide

/-- PushPastTheQueueStops: a stream with `n` characters queued, in phase `p`. -/
def fullTo (n : Nat) (p : Phase) (pad : Bool) : State :=
  { at_ .active p 0 false pad with outq := List.replicate n padChar }

/-- PushPastTheQueueStops: each clause on both sides of its bound. -/
theorem witness_PushPastTheQueueStops :
    [Phase.p0, .p3, .p1, .p4, .p2].all (fun p => [true, false].all fun pad =>
      (fullTo 7 p pad).life == .active && (fullTo 7 p pad).phase == p && (fullTo 7 p pad).cfgPad == pad) = true ∧
    exec (.consume 0#8) (fullTo 7 .p0 true) = .fault .outqOverflow ∧
    nextIs (exec (.consume 0#8) (fullTo 6 .p0 true)) (fun t => t.qcount == 7) = true ∧
    exec .finalize (fullTo 1 .p3 true) = .fault .outqOverflow ∧
    exec .finalize (fullTo 7 .p2 false) = .fault .outqOverflow ∧
    nextIs (exec .finalize (fullTo 2 .p1 true)) (fun t => t.qcount == 7) = true ∧
    nextIs (exec .finalize (fullTo 7 .p0 true)) (fun t => t.qcount == 7) = true ∧
    lifeAdmits State.reset.life .finalize = false ∧ lifeAdmits State.reset.life (.consume 0#8) = false ∧
    lifeAdmits Life.active (.init true true) = false :=
  ⟨by decide, rfl, by decide, rfl, rfl, by decide, by decide, by decide, by decide, by decide⟩

theorem witness_CharactersLeaveInTheOrderPushed :
    NoResetIn 5 (oneByte false true) ∧ (∃ t, stepN 5 (oneByte false true) = .next t) ∧
    pushed 5 (oneByte false true) = codes "74======" :=
  ⟨by decide, ⟨_, rfl⟩, by decide⟩

theorem witness_OnlyTheSinkStallsTheBlock :
    (let s := queued "A" (offering 0x1FF#10 false)
     s.outq ≠ [] ∧ NoResetIn 1 s ∧ ∀ e ∈ s.pins.take 1, e.outReady = false) ∧
    (let s := queued "A" (offering 0x1FF#10 true)
     s.qcount ≤ s.pins.length ∧ NoResetIn s.qcount s ∧ ∀ e ∈ s.pins.take s.qcount, e.outReady = true) := by decide

theorem witness_FaultRecordNeverSteersTheBlock :
    let s := { openAt .p3 0x07#8 with pins := [offering 0x200#10 true] }
    SameButRecord s { s with errIll := true, errSeq := true, ecmd := 0x141#10 } ∧ ∃ t, step s = .next t :=
  ⟨rfl, _, rfl⟩

theorem witness_FullSpeedStreamTakesTheStatedEdges :
    let s := { State.reset with pins := streamEdges true true [0xFF#8] ++ [idleEdge true] }
    s.life ≠ .active ∧ s.outq = [] ∧ s.pins = streamEdges true true [0xFF#8] ++ [idleEdge true] := by decide

theorem witness_AssemblerWordsAndRefusals :
    255 ≤ 255 ∧ 255 < 256 ∧ 0x3FF ≤ 0x3FF ∧ 0x3FF < 0x400 := by decide

theorem witness_PseudoInstructionsExpand :
    [0, 255] ≠ ([] : List Nat) ∧ (∀ n ∈ [0, 255], n ≤ 255) := by decide

end Sys2Proof.Tests
end

section
/-! SUPPORT. Bits most significant first: concatenations, fields and the significant bits of the carry; and a CONSUME
conserves the bits (spec/10_state.md R22, spec/20_memory.md R43). -/

namespace Sys2Proof.Machine

@[simp] theorem msbFirst_length {n : Nat} (v : BitVec n) : (msbFirst v).length = n := by simp [msbFirst]

@[simp] theorem msbFirst_getElem {n : Nat} (v : BitVec n) (i : Nat) (h : i < (msbFirst v).length) :
    (msbFirst v)[i] = v.getMsbD i := by simp [msbFirst]

theorem msbFirst_append {m n : Nat} (x : BitVec m) (y : BitVec n) :
    msbFirst (x ++ y) = msbFirst x ++ msbFirst y := by
  apply List.ext_getElem (by simp)
  intro i hi _
  by_cases h : i < m <;> simp [List.getElem_append, BitVec.getMsbD_append, h]

/-- Two adjacent fields of a value, the upper one first, are the field that spans both. -/
theorem msbFirst_adjacent_fields {n : Nat} (v : BitVec n) (lo len len' : Nat) :
    msbFirst (v.extractLsb' (lo + len) len') ++ msbFirst (v.extractLsb' lo len) =
      msbFirst (v.extractLsb' lo (len' + len)) := by
  rw [← msbFirst_append, BitVec.extractLsb'_append_extractLsb'_eq_extractLsb' rfl]

/-- A value cut in two keeps its bits and their order. -/
theorem msbFirst_cut {m k : Nat} (v : BitVec (m + k)) :
    msbFirst (v.extractLsb' k m) ++ msbFirst (v.extractLsb' 0 k) = msbFirst v := by
  rw [← msbFirst_append, BitVec.extractLsb'_append_extractLsb']

/-- The last `k` bits are the field `v[k-1:0]`. -/
theorem msbFirst_drop {n k : Nat} (v : BitVec n) (hk : k ≤ n) :
    (msbFirst v).drop (n - k) = msbFirst (v.extractLsb' 0 k) := by
  apply List.ext_getElem (by simp; omega)
  intro i _ hi
  have hik : i < k := by simpa using hi
  have hbit : n - 1 - (n - k + i) = k - 1 - i := by omega
  have hin : n - k + i < n := by omega
  have hlow : k - 1 - i < k := by omega
  simp [BitVec.getMsbD, hik, hbit, hin, hlow]

/-- The significant carry bits are the field `carry[phase-1:0]` (R22). -/
theorem carryBits_eq (s : State) : carryBits s = msbFirst (s.carry.extractLsb' 0 s.phase.value) :=
  msbFirst_drop s.carry (by cases s.phase <;> decide)

/-- Zero extension keeps the value's bits (R12). -/
theorem extractLsb'_zext8 {n : Nat} (v : BitVec n) (hn : n ≤ 8) : (zext8 v).extractLsb' 0 n = v := by
  ext i hi
  have hi8 : i < 8 := by omega
  simp [zext8, hi8, hi]

/-- The significant bits of the kept carry are the byte's low bits (R66 to R70). -/
theorem keptCarry_extractLsb' (p : Phase) (b : Byte) :
    (keptCarry p b).extractLsb' 0 (nextPhase p).value = b.extractLsb' 0 (nextPhase p).value := by
  cases p with
  | p0 => exact extractLsb'_zext8 (b.extractLsb 2 0) (by decide)
  | p3 => exact extractLsb'_zext8 (b.extractLsb 0 0) (by decide)
  | p1 => exact extractLsb'_zext8 (b.extractLsb 3 0) (by decide)
  | p4 => exact extractLsb'_zext8 (b.extractLsb 1 0) (by decide)
  | p2 => exact Subsingleton.elim (α := BitVec 0) _ _

/-- Symbol A: a carried group followed by a value is the group joined with the value's upper field, and then the rest
of the value. -/
theorem msbFirst_regroup {k m n : Nat} (x : BitVec k) (v : BitVec (m + n)) :
    msbFirst x ++ msbFirst v = msbFirst (x ++ v.extractLsb' n m) ++ msbFirst (v.extractLsb' 0 n) := by
  rw [msbFirst_append, List.append_assoc, msbFirst_cut]

/-- In every phase, the carried bits followed by the byte's are the symbols' bits followed by the byte's low bits:
symbol A takes the carry and the top of the byte, symbol B, where the phase has one, the five bits below (R66 to R70). -/
theorem consumeSymbols_bits (p : Phase) (c b : Byte) :
    msbFirst (c.extractLsb' 0 p.value) ++ msbFirst b =
      (consumeSymbols p c b).flatMap msbFirst ++ msbFirst (b.extractLsb' 0 (nextPhase p).value) := by
  cases p <;> simp only [consumeSymbols, List.flatMap_cons, List.flatMap_nil, List.append_nil, List.append_assoc]
  case p0 => exact (msbFirst_cut (m := 5) (k := 3) b).symm
  case p3 =>
    have symbolA := msbFirst_regroup (m := 2) (n := 6) (carry3 c) b
    have symbolB := msbFirst_adjacent_fields b 0 1 5
    exact symbolA.trans (congrArg _ symbolB.symm)
  case p1 => exact msbFirst_regroup (m := 4) (n := 4) (carry1 c) b
  case p4 =>
    have symbolA := msbFirst_regroup (m := 1) (n := 7) (carry4 c) b
    have symbolB := msbFirst_adjacent_fields b 0 2 5
    exact symbolA.trans (congrArg _ symbolB.symm)
  case p2 =>
    have symbolA := msbFirst_regroup (m := 3) (n := 5) (carry2 c) b
    have symbolB := msbFirst_adjacent_fields b 0 0 5
    exact symbolA.trans (congrArg _ symbolB.symm)

/-- Settles O18: the state a CONSUME answers is its phase case, and every phase case conserves the bits. -/
theorem consumeConservesTheBits : Obligations.ConsumeConservesTheBits := by
  intro s t b hl h
  obtain ⟨hn, _⟩ | ⟨_, _, rfl⟩ := execConsume_next h
  · exact absurd hl hn
  · refine ⟨consumeSymbols s.phase s.carry b, by simp [consumeCase_eq], ?_⟩
    simp only [carryBits_eq, consumeCase_eq, keptCarry_extractLsb']
    exact consumeSymbols_bits s.phase s.carry b

end Sys2Proof.Machine
end

section
/-! SUPPORT. Who writes the configuration (spec/10_state.md R24). -/

namespace Sys2Proof.Machine

@[simp] theorem consumeCase_cfgLower (b : Byte) (s : State) : (consumeCase b s).cfgLower = s.cfgLower := by
  rw [consumeCase_eq]
@[simp] theorem consumeCase_cfgPad (b : Byte) (s : State) : (consumeCase b s).cfgPad = s.cfgPad := by
  rw [consumeCase_eq]
@[simp] theorem finalizeCase_cfgLower (s : State) : (finalizeCase s).cfgLower = s.cfgLower := by
  rw [finalizeCase_eq]
@[simp] theorem finalizeCase_cfgPad (s : State) : (finalizeCase s).cfgPad = s.cfgPad := by
  rw [finalizeCase_eq]

/-- A command keeps the configuration, or it is an INIT outside a stream and writes its two bits (R24, R93). -/
theorem exec_config_cases {i : Instr} {s t : State} (h : exec i s = .next t) :
    (t.cfgLower = s.cfgLower ∧ t.cfgPad = s.cfgPad ∧ ((∃ l p, i = .init l p) → s.life = .active)) ∨
    (s.life ≠ .active ∧ i = .init t.cfgLower t.cfgPad) := by
  cases i with
  | consume b => obtain ⟨_, rfl⟩ | ⟨_, _, rfl⟩ := execConsume_next h <;> simp
  | finalize => obtain ⟨_, rfl⟩ | ⟨_, _, rfl⟩ := execFinalize_next h <;> simp
  | init l p => obtain ⟨hl, rfl⟩ | ⟨hl, rfl⟩ := execInit_next h <;> simp [hl]

/-- Settles O38: a step without reset carries out no command and keeps the configuration, or carries out one command,
and of these only an INIT outside a stream writes it. -/
theorem onlyInitWritesTheConfiguration : Obligations.OnlyInitWritesTheConfiguration := by
  intro s t hn h
  obtain ⟨he, hs, _⟩ | ⟨e, rest, i, _, he, ha, _, hx⟩ := step_effective_cases hn h
  · simp [he, hs.cfgLower, hs.cfgPad]
  · obtain ⟨hl, hp, hi⟩ | ⟨hl, rfl⟩ := exec_config_cases hx
    · refine ⟨by simp [hl, hp], fun l p hlp => ?_⟩
      obtain rfl : i = .init l p := by simpa [he] using hlp
      have hact : s.life = .active := hi ⟨l, p, rfl⟩
      simp [hact, lifeAdmits] at ha
    · exact ⟨fun _ => ⟨hl, _, _, he⟩, by simp [he]⟩

end Sys2Proof.Machine
end

section
/-! SUPPORT. The accepting edge, the drain edge, and the order in which the characters leave (spec/20_memory.md R39 to
R41, R47). -/

namespace Sys2Proof.Machine

/-! ### One edge -/

/-- A word offered out of reset to an empty queue is accepted (R39, R40). -/
theorem accepts_of_offer {e : Pins} {s : State} (hr : e.rstN = true) (hv : e.cmdValid = true) (hq : s.outq = []) :
    accepts e s = true := by
  simp [accepts, State.cmdReady, State.qcount, hr, hv, hq]

/-- A legal word's accept runs its command (R59). -/
theorem accept_of_decode {w : CmdWord} {i : Instr} (h : decode w = .ok i) (s : State) : accept w s = exec i s := by
  simp [accept, h]

/-- A character in the queue is drained when the sink takes it, out of reset (R41). -/
theorem drains_of_ready {e : Pins} {s : State} (hr : e.rstN = true) (ho : e.outReady = true) (hq : s.outq ≠ []) :
    drains e s = true := by
  simp [drains, State.outValid, State.qcount, hr, ho, hq]

/-- An accept needs an empty queue and a drain a character, so an edge that drains accepts nothing (R42). -/
theorem not_accepts_of_drains {e : Pins} {s : State} (h : drains e s = true) : accepts e s = false :=
  Bool.eq_false_iff.mpr fun ha => drains_outq h (accepts_outq ha)

/-- A draining edge (R41). -/
theorem clockEdge_drain {e : Pins} {s : State} (h : drains e s = true) : clockEdge e s = .next s.drain := by
  have hr : e.rstN = true := by simp [drains] at h; exact h.1.1
  simp [clockEdge, hr, not_accepts_of_drains h, h]

/-- Settles O8: the edge accepts its word, and the accept runs the decoded command. -/
theorem stepRunsTheDecodedCommand : Obligations.StepRunsTheDecodedCommand := by
  intro s e rest i hp hr hv hq hd
  have ha : accepts e (s.afterEdge rest) = true := accepts_of_offer hr hv hq
  rw [step_edge hp, clockEdge_accept ha, accept_of_decode hd]

/-- Settles O10: the output ports on an empty and on a non-empty queue, and the drain edge. -/
theorem drainDeliversTheOldestCharacter : Obligations.DrainDeliversTheOldestCharacter := by
  constructor
  · intro s
    cases hq : s.outq with
    | nil => simp [State.outValid, State.outChar, State.qcount, hq]
    | cons c q => simp [State.outValid, State.outChar, State.qcount, hq]
  · intro s e rest c q hp hr ho hq
    have hd : drains e (s.afterEdge rest) = true := drains_of_ready hr ho (by simp [hq])
    rw [step_edge hp, clockEdge_drain hd]
    simp [State.drain, hq]

/-! ### What every step does to the host's side -/

/-- A command leaves the host's side alone: the edges to come and the delivered characters stay. -/
theorem exec_host_frame {i : Instr} {s t : State} (h : exec i s = .next t) : t.pins = s.pins ∧ t.sink = s.sink := by
  obtain ⟨_, rfl⟩ | ⟨b, _, _, rfl, _⟩ | ⟨_, _, _, rfl⟩ | ⟨l, p, _, _, rfl⟩ := exec_cases h
  · simp
  · simp [consumeCase_eq]
  · simp [finalizeCase_eq]
  · simp

/-- An accept leaves the host's side alone, whether its word is legal or not. -/
theorem accept_host_frame {w : CmdWord} {s t : State} (h : accept w s = .next t) :
    t.pins = s.pins ∧ t.sink = s.sink := by
  obtain ⟨_, _, rfl⟩ | ⟨_, _, hx⟩ := accept_cases h
  · simp
  · exact exec_host_frame hx

/-- Every step uses up the next edge, if there is one. -/
theorem step_pins {s t : State} (h : step s = .next t) : t.pins = s.pins.tail := by
  obtain ⟨hp, rfl⟩ | ⟨e, rest, hp, ⟨_, rfl⟩ | ⟨_, hacc⟩ | ⟨_, _, rfl⟩ | ⟨_, _, _, rfl⟩⟩ := step_cases h
  · simp [hp]
  · simp [hp]
  · simp [(accept_host_frame hacc).1, hp]
  · simp [hp]
  · simp [hp]

/-- A run without reset peels into its first step and the rest. -/
theorem NoResetIn.succ {n : Nat} {s t : State} (hn : NoResetIn (n + 1) s) (h : step s = .next t) :
    NoResetIn 1 s ∧ NoResetIn n t := by
  cases hp : s.pins with
  | nil => simp [NoResetIn, step_pins h, hp]
  | cons e rest => simpa [NoResetIn, step_pins h, hp] using hn

/-! ### The characters one step pushes -/

/-- What a run pushes is what its first step pushes, followed by what the rest pushes. -/
theorem pushed_succ {n : Nat} {s t : State} (h : step s = .next t) :
    pushed (n + 1) s = pushedNow s ++ pushed n t := by
  simp [pushed, h]

theorem pushedNow_no_edge {s : State} (hp : s.pins = []) : pushedNow s = [] := by
  simp [pushedNow, acceptedNow, hp]

/-- Only an accept pushes. -/
theorem pushedNow_of_not_accepts {s : State} {e : Pins} {rest : List Pins} (hp : s.pins = e :: rest)
    (ha : accepts e s = false) : pushedNow s = [] := by
  simp [pushedNow, acceptedNow, hp, ha]

/-- The queue is empty at an accept (R39), so a step that accepts pushes all that is queued after it. -/
theorem pushedNow_of_accepts {s t : State} {e : Pins} {rest : List Pins} (hp : s.pins = e :: rest)
    (ha : accepts e s = true) (h : step s = .next t) : pushedNow s = t.outq := by
  simp [pushedNow, acceptedNow, hp, ha, h, accepts_outq ha]

/-- A step without reset adds the characters it pushes at the end of those delivered or queued: an accept adds them to
an empty queue, and a drain only moves a character. -/
theorem step_emitted {s t : State} (hn : NoResetIn 1 s) (h : step s = .next t) :
    t.emitted = s.emitted ++ pushedNow s := by
  obtain ⟨hp, rfl⟩ | ⟨e, rest, hp, ⟨hr, _⟩ | ⟨ha, hacc⟩ | ⟨_, hd, rfl⟩ | ⟨_, ha, _, rfl⟩⟩ := step_cases h
  · simp [pushedNow_no_edge hp]
  · have he : e.rstN = true := hn e (by simp [hp])
    simp [he] at hr
  · have hq : s.outq = [] := accepts_outq ha
    have hsink : t.sink = s.sink := (accept_host_frame hacc).2
    have hpush : pushedNow s = t.outq := pushedNow_of_accepts hp ha h
    simp [State.emitted, hq, hsink, hpush]
  · have hpush : pushedNow s = [] := pushedNow_of_not_accepts hp (not_accepts_of_drains hd)
    rw [State.drain_emitted]
    simp [State.emitted, hpush]
  · have hpush : pushedNow s = [] := pushedNow_of_not_accepts hp ha
    simp [State.emitted, hpush]

/-- Settles O49, by induction on the number of steps: each step adds its pushes at the end. -/
theorem charactersLeaveInTheOrderPushed : Obligations.CharactersLeaveInTheOrderPushed := by
  intro n
  induction n with
  | zero =>
    intro s t _ h
    obtain rfl : s = t := by simpa [stepN] using h
    simp [pushed]
  | succ n ih =>
    intro s t hn h
    obtain ⟨u, hu, ht⟩ := stepN_succ h
    obtain ⟨hn1, hnu⟩ := NoResetIn.succ hn hu
    calc t.emitted = u.emitted ++ pushed n u := ih u t hnu ht
      _ = s.emitted ++ pushedNow s ++ pushed n u := by rw [step_emitted hn1 hu]
      _ = s.emitted ++ pushed (n + 1) s := by rw [pushed_succ hu, List.append_assoc]

end Sys2Proof.Machine
end

section
/-! SUPPORT. The decoder and the encoder: the fields of a word, one equation per branch of R59, the rows of the opcode
map, and the word ranges of R60 (spec/30_encoding.md R54 to R60). -/

namespace Sys2Proof

/-! ### The fields of a word -/

@[simp] theorem opField_assembleFields (op : BitVec 2) (arg : Byte) : opField (assembleFields op arg) = op :=
  BitVec.extractLsb'_append_eq_left
@[simp] theorem argField_assembleFields (op : BitVec 2) (arg : Byte) : argField (assembleFields op arg) = arg :=
  BitVec.extractLsb'_append_eq_right

/-- A word is its two fields joined (R54). -/
theorem assembleFields_fields (w : CmdWord) : assembleFields (opField w) (argField w) = w :=
  BitVec.extractLsb'_append_extractLsb' (w := 2) (len := 8) (x := w)

theorem opField_toNat (w : CmdWord) : (opField w).toNat = w.toNat / 256 := by
  have hw : w.toNat < 1024 := w.isLt
  simp [opField, BitVec.extractLsb_toNat, Nat.shiftRight_eq_div_pow]
  omega

theorem argField_toNat (w : CmdWord) : (argField w).toNat = w.toNat % 256 := by
  simp [argField, BitVec.extractLsb_toNat]

/-- The bits of an argument that an INIT word holds at 0 (R58). -/
theorem initArgBits_toNat (arg : Byte) : (arg.extractLsb 7 2).toNat = arg.toNat / 4 := by
  have harg : arg.toNat < 256 := arg.isLt
  simp [BitVec.extractLsb_toNat, Nat.shiftRight_eq_div_pow]
  omega

/-- Words are compared field by field. -/
theorem assembleFields_inj {op op' : BitVec 2} {arg arg' : Byte} :
    assembleFields op arg = assembleFields op' arg' ↔ op = op' ∧ arg = arg' := by
  constructor
  · intro h
    exact ⟨by simpa using congrArg opField h, by simpa using congrArg argField h⟩
  · rintro ⟨rfl, rfl⟩
    rfl

/-- A word matches a row of the opcode map if and only if each of its fields does. -/
theorem maskedWord_iff (w : CmdWord) (opMask opMatch : BitVec 2) (argMask argMatch : Byte) :
    w &&& assembleFields opMask argMask = assembleFields opMatch argMatch ↔
      opField w &&& opMask = opMatch ∧ argField w &&& argMask = argMatch := by
  have hand : w &&& assembleFields opMask argMask =
      assembleFields (opField w &&& opMask) (argField w &&& argMask) := by
    conv_lhs => rw [← assembleFields_fields w]
    exact BitVec.and_append
  rw [hand, assembleFields_inj]

/-- The bits `arg[7:2]` are 0 if and only if the argument is 0 under the mask of the INIT row. -/
theorem initArgMask_iff (arg : Byte) : arg &&& 0xFC#8 = 0x00#8 ↔ arg.extractLsb 7 2 = 0b000000#6 := by
  revert arg
  decide

theorem and_opMask (op : BitVec 2) : op &&& 0b11#2 = op := BitVec.and_allOnes

theorem and_argMask (arg : Byte) : arg &&& 0xFF#8 = arg := BitVec.and_allOnes

/-- A word matches the CONSUME row when its `op` is 0b01. -/
theorem consumeRow_iff (w : CmdWord) : w &&& 0x300#10 = 0x100#10 ↔ opField w = 0b01#2 := by
  refine (maskedWord_iff w 0b11#2 0b01#2 0x00#8 0x00#8).trans ?_
  simp [and_opMask]

/-- A word matches the FINALIZE row when its `op` is 0b10 and its argument is 0. -/
theorem finalizeRow_iff (w : CmdWord) : w &&& 0x3FF#10 = 0x200#10 ↔ opField w = 0b10#2 ∧ argField w = 0x00#8 := by
  refine (maskedWord_iff w 0b11#2 0b10#2 0xFF#8 0x00#8).trans ?_
  rw [and_opMask, and_argMask]

/-- A word matches the INIT row when its `op` is 0b11 and `arg[7:2]` is 0. -/
theorem initRow_iff (w : CmdWord) :
    w &&& 0x3FC#10 = 0x300#10 ↔ opField w = 0b11#2 ∧ (argField w).extractLsb 7 2 = 0b000000#6 := by
  refine (maskedWord_iff w 0b11#2 0b11#2 0xFC#8 0x00#8).trans ?_
  rw [and_opMask, initArgMask_iff]

/-! ### One equation per branch of the decoder (R59, R60) -/

section
variable {w : CmdWord}

theorem decode_opZero (hop : opField w = 0b00#2) : decode w = .error .opZero := by
  simp [decode, hop]

theorem decode_consume (hop : opField w = 0b01#2) : decode w = .ok (.consume (argField w)) := by
  simp [decode, hop]

theorem decode_finalize (hop : opField w = 0b10#2) (harg : argField w = 0x00#8) : decode w = .ok .finalize := by
  simp [decode, hop, harg]

theorem decode_finalizeArg (hop : opField w = 0b10#2) (harg : argField w ≠ 0x00#8) :
    decode w = .error .finalizeArg := by
  simp [decode, hop, harg]

theorem decode_init (hop : opField w = 0b11#2) (harg : (argField w).extractLsb 7 2 = 0b000000#6) :
    decode w = .ok (.init ((argField w).getLsbD 0) ((argField w).getLsbD 1)) := by
  simp only [decode, hop, harg]
  simp

theorem decode_initArg (hop : opField w = 0b11#2) (harg : (argField w).extractLsb 7 2 ≠ 0b000000#6) :
    decode w = .error .initArg := by
  simp only [decode, hop, harg]
  simp

end

/-- A word that matches no row is illegal: its class is read off its `op` (R60). -/
theorem decode_error_of_no_row {w : CmdWord} (hc : opField w ≠ 0b01#2)
    (hf : ¬(opField w = 0b10#2 ∧ argField w = 0x00#8))
    (hi : ¬(opField w = 0b11#2 ∧ (argField w).extractLsb 7 2 = 0b000000#6)) : ∃ r, decode w = .error r := by
  have hop : opField w = 0b00#2 ∨ opField w = 0b10#2 ∨ opField w = 0b11#2 := by
    generalize opField w = op at hc
    revert op
    decide
  obtain hop | hop | hop := hop
  · exact ⟨_, decode_opZero hop⟩
  · exact ⟨_, decode_finalizeArg hop fun harg => hf ⟨hop, harg⟩⟩
  · exact ⟨_, decode_initArg hop fun harg => hi ⟨hop, harg⟩⟩

/-- Every command's word decodes to that command. -/
@[simp] theorem decode_encode (i : Instr) : decode (encode i) = .ok i := by
  cases i with
  | consume b => simp [encode, decode_consume]
  | finalize => simp [encode, decode_finalize]
  | init lower pad => cases lower <;> cases pad <;> rfl

/-! ### The word ranges of R60 -/

section
variable {n : Nat}

theorem opField_ofNat {k : Nat} (hlo : 256 * k ≤ n) (hhi : n < 256 * (k + 1)) :
    opField (BitVec.ofNat 10 n) = BitVec.ofNat 2 k := by
  apply BitVec.eq_of_toNat_eq
  simp only [opField_toNat, BitVec.toNat_ofNat]
  omega

theorem argField_ofNat (n : Nat) : argField (BitVec.ofNat 10 n) = BitVec.ofNat 8 n := by
  apply BitVec.eq_of_toNat_eq
  simp only [argField_toNat, BitVec.toNat_ofNat]
  omega

theorem decode_ofNat_opZero (hhi : n < 256) : decode (BitVec.ofNat 10 n) = .error .opZero :=
  decode_opZero (opField_ofNat (k := 0) (by omega) hhi)

theorem decode_ofNat_finalizeArg (hlo : 513 ≤ n) (hhi : n < 768) :
    decode (BitVec.ofNat 10 n) = .error .finalizeArg := by
  refine decode_finalizeArg (opField_ofNat (k := 2) (by omega) hhi) fun harg => ?_
  have hzero : n % 256 = 0 := by simpa [argField_ofNat] using congrArg BitVec.toNat harg
  omega

/-- The bits `arg[7:2]` of a word written as a number. -/
theorem initArgBits_ofNat_toNat (n : Nat) :
    ((argField (BitVec.ofNat 10 n)).extractLsb 7 2).toNat = n % 256 / 4 := by
  rw [initArgBits_toNat, argField_ofNat, BitVec.toNat_ofNat]

theorem decode_ofNat_initArg (hlo : 772 ≤ n) (hhi : n < 1024) : decode (BitVec.ofNat 10 n) = .error .initArg := by
  refine decode_initArg (opField_ofNat (k := 3) (by omega) hhi) fun harg => ?_
  have hzero : n % 256 / 4 = 0 := (initArgBits_ofNat_toNat n).symm.trans (congrArg BitVec.toNat harg)
  omega

/-- The legal words: 256 of CONSUME and, right after them, the one of FINALIZE; and the four of INIT. -/
theorem decode_ofNat_legal (h : 256 ≤ n ∧ n < 513 ∨ 768 ≤ n ∧ n < 772) :
    ∃ i, decode (BitVec.ofNat 10 n) = .ok i := by
  obtain hn | rfl | hn : (256 ≤ n ∧ n < 512) ∨ n = 512 ∨ (768 ≤ n ∧ n < 772) := by omega
  · exact ⟨_, decode_consume (opField_ofNat (k := 1) hn.1 hn.2)⟩
  · exact ⟨_, decode_finalize rfl rfl⟩
  · have harg : (argField (BitVec.ofNat 10 n)).extractLsb 7 2 = 0b000000#6 := by
      apply BitVec.eq_of_toNat_eq
      rw [initArgBits_ofNat_toNat]
      change n % 256 / 4 = 0
      omega
    exact ⟨_, decode_init (opField_ofNat (k := 3) hn.1 (by omega)) harg⟩

end

/-- The illegal classes and the legal words partition the 1024 words into ranges. -/
theorem range_1024_eq :
    List.range 1024 = List.range' 0 256 ++ List.range' 256 257 ++ List.range' 513 255 ++ List.range' 768 4 ++
      List.range' 772 252 := by
  have h513 : List.range' 0 256 ++ List.range' 256 257 = List.range' 0 513 := List.range'_append_1
  have h768 : List.range' 0 513 ++ List.range' 513 255 = List.range' 0 768 := List.range'_append_1
  have h772 : List.range' 0 768 ++ List.range' 768 4 = List.range' 0 772 := List.range'_append_1
  have h1024 : List.range' 0 772 ++ List.range' 772 252 = List.range' 0 1024 := List.range'_append_1
  rw [List.range_eq_range', h513, h768, h772, h1024]

/-- A range on which a predicate is constant counts in full or not at all. -/
theorem length_filter_range' {p : Nat → Bool} {lo len : Nat} (b : Bool)
    (h : ∀ n, lo ≤ n → n < lo + len → p n = b) :
    ((List.range' lo len).filter p).length = if b then len else 0 := by
  have hconst : (List.range' lo len).filter p = (List.range' lo len).filter fun _ => b := by
    refine List.filter_congr fun n hn => ?_
    obtain ⟨hlo, hhi⟩ := List.mem_range'_1.mp hn
    exact h n hlo hhi
  cases b <;> simp [hconst]

/-- A predicate of the decoder's outcome that does not tell legal commands apart counts whole classes of R60. -/
theorem count_decoded (p : Except Illegal Instr → Bool) (legal : Bool) (hp : ∀ i, p (.ok i) = legal) :
    ((List.range 1024).filter fun n => p (decode (BitVec.ofNat 10 n))).length =
      (if p (.error .opZero) then 256 else 0) + (if legal then 257 else 0) +
        (if p (.error .finalizeArg) then 255 else 0) + (if legal then 4 else 0) +
        (if p (.error .initArg) then 252 else 0) := by
  have hlegal {n : Nat} (h : 256 ≤ n ∧ n < 513 ∨ 768 ≤ n ∧ n < 772) :
      p (decode (BitVec.ofNat 10 n)) = legal := by
    obtain ⟨i, hi⟩ := decode_ofNat_legal h
    rw [hi, hp]
  simp only [range_1024_eq, List.filter_append, List.length_append]
  rw [length_filter_range' (p (.error .opZero)) fun n _ hhi => by rw [decode_ofNat_opZero (by omega)],
    length_filter_range' legal fun n hlo hhi => hlegal (.inl ⟨hlo, hhi⟩),
    length_filter_range' (p (.error .finalizeArg)) fun n hlo hhi => by rw [decode_ofNat_finalizeArg hlo hhi],
    length_filter_range' legal fun n hlo hhi => hlegal (.inr ⟨hlo, hhi⟩),
    length_filter_range' (p (.error .initArg)) fun n hlo hhi => by rw [decode_ofNat_initArg hlo hhi]]

/-- Settles O4: each of the four predicates holds on whole classes of R60. -/
theorem illegalWordCounts : Obligations.IllegalWordCounts := by
  refine ⟨?opZero, ?finalizeArg, ?initArg, ?legal⟩
  case opZero => exact (count_decoded (· == .error .opZero) false fun _ => rfl).trans (by decide)
  case finalizeArg => exact (count_decoded (· == .error .finalizeArg) false fun _ => rfl).trans (by decide)
  case initArg => exact (count_decoded (· == .error .initArg) false fun _ => rfl).trans (by decide)
  case legal => exact (count_decoded (·.isOk) true fun _ => rfl).trans (by decide)

end Sys2Proof

namespace Sys2Proof.Machine

/-- An illegal word's accept records the fault (R59, R94). -/
theorem accept_of_decode_error {w : CmdWord} {r : Illegal} (h : decode w = .error r) (s : State) :
    accept w s = .next (s.raiseFault .ill w) := by
  simp [accept, h, execIllegal]

/-- Settles O3: matching a row is a condition on the word's fields, and the decoder's branches are those conditions. -/
theorem decodeFollowsTheOpcodeMap : Obligations.DecodeFollowsTheOpcodeMap := by
  intro w
  have hlow : argField w = w.setWidth 8 := (BitVec.setWidth_eq_extractLsb' (by decide)).symm
  have hbit0 : (argField w).getLsbD 0 = w.getLsbD 0 := by simp [hlow]
  have hbit1 : (argField w).getLsbD 1 = w.getLsbD 1 := by simp [hlow]
  simp only [ne_eq, consumeRow_iff, finalizeRow_iff, initRow_iff]
  rw [← hlow, ← hbit0, ← hbit1]
  exact ⟨decode_consume, fun ⟨hop, harg⟩ => decode_finalize hop harg, fun ⟨hop, harg⟩ => decode_init hop harg,
    decode_error_of_no_row, fun i s hi => accept_of_decode hi s, fun r s hr => accept_of_decode_error hr s⟩

end Sys2Proof.Machine
end

section
/-! SUPPORT. The assembler: when a line is refused, and what the words of an accepted line decode to
(spec/30_encoding.md R63, R64). -/

namespace Sys2Proof.Machine

theorem assemble_of_wf {l : AsmLine} (h : l.wf = true) : l.assemble = some l.words := by
  simp [AsmLine.assemble, h]

theorem assemble_of_not_wf {l : AsmLine} (h : l.wf = false) : l.assemble = none := by
  simp [AsmLine.assemble, h]

theorem byteInRange_iff {n : Nat} : byteInRange n = true ↔ n ≤ 255 := by
  simp [byteInRange, Nat.lt_succ_iff]

theorem wordInRange_iff {w : Nat} : wordInRange w = true ↔ w ≤ 0x3FF := by
  simp [wordInRange, Nat.lt_succ_iff]

theorem all_byteInRange_iff {bs : List Nat} : bs.all byteInRange = true ↔ ∀ n ∈ bs, n ≤ 255 := by
  simp [byteInRange_iff]

@[simp] theorem decode_consumeWord (n : Nat) : decode (consumeWord n) = .ok (.consume (BitVec.ofNat 8 n)) :=
  decode_encode _

/-- The table of R63 sets the byte below the bits of `op`. -/
theorem consumeWord_eq {n : Nat} (hn : n ≤ 255) : consumeWord n = 0x100#10 ||| BitVec.ofNat 10 n := by
  have hfields : BitVec.ofNat 10 n = assembleFields 0b00#2 (BitVec.ofNat 8 n) := by
    rw [← assembleFields_fields (BitVec.ofNat 10 n), opField_ofNat (k := 0) (by omega) (by omega), argField_ofNat]
  calc consumeWord n
    _ = assembleFields (0b01#2 ||| 0b00#2) (0x00#8 ||| BitVec.ofNat 8 n) := by simp [consumeWord, encode]
    _ = assembleFields 0b01#2 0x00#8 ||| assembleFields 0b00#2 (BitVec.ofNat 8 n) := BitVec.or_append.symm
    _ = 0x100#10 ||| BitVec.ofNat 10 n := by rw [hfields]; rfl

/-- Settles O57: the words of the four forms, and the two range checks. -/
theorem assemblerWordsAndRefusals : Obligations.AssemblerWordsAndRefusals := by
  refine ⟨?init, ?consume, ?consumeRefused, rfl, ?word, ?wordRefused⟩
  case init => decide
  case consume =>
    intro n hn
    have hwf : (AsmLine.consume n).wf = true := byteInRange_iff.mpr hn
    rw [assemble_of_wf hwf, AsmLine.words, consumeWord_eq hn]
  case consumeRefused =>
    intro n hn
    exact assemble_of_not_wf (Bool.eq_false_iff.mpr (mt byteInRange_iff.mp (by omega)))
  case word =>
    intro w hw
    exact assemble_of_wf (wordInRange_iff.mpr hw)
  case wordRefused =>
    intro w hw
    exact assemble_of_not_wf (Bool.eq_false_iff.mpr (mt wordInRange_iff.mp (by omega)))

/-- Settles O58: a line in range stands for its words, and each word decodes to the command it encodes. -/
theorem pseudoInstructionsExpand : Obligations.PseudoInstructionsExpand := by
  refine ⟨fun bs hne hbs => ?bytes, assemble_of_not_wf rfl, fun l p bs hbs => ?stream⟩
  case bytes =>
    have hwf : (AsmLine.bytes bs).wf = true := by
      simpa [AsmLine.wf, hne] using all_byteInRange_iff.mpr hbs
    exact ⟨_, assemble_of_wf hwf, by simp [AsmLine.words]⟩
  case stream =>
    have hwf : (AsmLine.stream l p bs).wf = true := all_byteInRange_iff.mpr hbs
    exact ⟨_, assemble_of_wf hwf, by simp [AsmLine.words, wholeStream, openStream]⟩

end Sys2Proof.Machine
end

section
/-! SUPPORT. CONSUME at an accept: the next state in each phase, and what it reads (spec/40_regrouper.md R66 to R70,
R73). -/

namespace Sys2Proof.Machine

/-! ### The next state -/

/-- In a stream with the queue empty a CONSUME completes: its one or two characters fit. -/
theorem exec_consume_of_empty {s : State} (b : Byte) (hl : s.life = .active) (hq : s.outq = []) :
    exec (.consume b) s = .next (consumeCase b s) := by
  have hsyms : (consumeSymbols s.phase s.carry b).length ≤ Config.outqDepth :=
    (consumeSymbols_length s.phase s.carry b).2.trans (by decide)
  have hfits : (consumeCase b s).qcount ≤ Config.outqDepth := by
    simpa [consumeCase_eq, State.qcount, hq] using hsyms
  simp [exec, execConsume, hl, commit_of_fits hfits]

/-- The kept carry is the byte with the bits at and above the new phase cleared (R66 to R70). -/
theorem keptCarry_eq_and (p : Phase) (b : Byte) :
    keptCarry p b = b &&& BitVec.ofNat 8 (2 ^ (nextPhase p).value - 1) := by
  have hmask : 2 ^ (nextPhase p).value - 1 < 2 ^ 8 := by cases p <;> decide
  apply BitVec.eq_of_toNat_eq
  rw [BitVec.toNat_and, BitVec.toNat_ofNat, Nat.mod_eq_of_lt hmask, Nat.and_two_pow_sub_one_eq_mod,
    ← Nat.mod_eq_of_lt (keptCarry_lt p b)]
  simpa using congrArg BitVec.toNat (keptCarry_extractLsb' p b)

/-- The whole next state of a CONSUME at an accept in phase `p`. -/
theorem exec_consume_in_phase {s : State} {p : Phase} (b : Byte) (hl : s.life = .active) (hp : s.phase = p)
    (hq : s.outq = []) :
    exec (.consume b) s = .next { s with
      outq := (consumeSymbols p s.carry b).map (symbolChar s.cfgLower)
      carry := b &&& BitVec.ofNat 8 (2 ^ (nextPhase p).value - 1)
      phase := nextPhase p } := by
  rw [exec_consume_of_empty b hl hq, consumeCase_eq, hp, hq, keptCarry_eq_and, List.nil_append]

/-- Settles O13: the next state in phase 0. -/
theorem consumeInPhase0 : Obligations.ConsumeInPhase0 :=
  fun _ b hl hp hq => exec_consume_in_phase b hl hp hq

/-- Settles O14: the next state in phase 3. -/
theorem consumeInPhase3 : Obligations.ConsumeInPhase3 :=
  fun _ b hl hp hq => exec_consume_in_phase b hl hp hq

/-- Settles O15: the next state in phase 1. -/
theorem consumeInPhase1 : Obligations.ConsumeInPhase1 :=
  fun _ b hl hp hq => exec_consume_in_phase b hl hp hq

/-- Settles O16: the next state in phase 4. -/
theorem consumeInPhase4 : Obligations.ConsumeInPhase4 :=
  fun _ b hl hp hq => exec_consume_in_phase b hl hp hq

/-- Settles O17: the next state in phase 2, where the mask of the kept bits is 0. -/
theorem consumeInPhase2 : Obligations.ConsumeInPhase2 := by
  intro s b hl hp hq
  have hcarry : b &&& 0x00#8 = 0x00#8 := BitVec.and_zero
  rw [← hcarry]
  exact exec_consume_in_phase b hl hp hq

/-! ### What a CONSUME reads -/

theorem msbFirst_inj {n : Nat} {v w : BitVec n} (h : msbFirst v = msbFirst w) : v = w := by
  refine BitVec.eq_of_getMsbD_eq fun i hi => ?_
  have hbit : (msbFirst v)[i]? = (msbFirst w)[i]? := by rw [h]
  simpa [hi] using hbit

/-- The symbols depend on the carry only through its significant bits (R73). -/
theorem consumeSymbols_congr (p : Phase) {c d : Byte} (b : Byte)
    (h : c.extractLsb' 0 p.value = d.extractLsb' 0 p.value) : consumeSymbols p c b = consumeSymbols p d b := by
  cases p with
  | p0 => rfl
  | p3 =>
    have hcarry : carry3 c = carry3 d := h
    simp only [consumeSymbols, hcarry]
  | p1 =>
    have hcarry : carry1 c = carry1 d := h
    simp only [consumeSymbols, hcarry]
  | p4 =>
    have hcarry : carry4 c = carry4 d := h
    simp only [consumeSymbols, hcarry]
  | p2 =>
    have hcarry : carry2 c = carry2 d := h
    simp only [consumeSymbols, hcarry]

/-- Settles O19: both streams push the same symbols, and the phase and carry left depend on phase and byte alone. -/
theorem consumeDependsOnlyOnPhaseCarryByteAndCase : Obligations.ConsumeDependsOnlyOnPhaseCarryByteAndCase := by
  intro s u b hsl hul hsq huq hp hc hcfg
  have hbits : s.carry.extractLsb' 0 u.phase.value = u.carry.extractLsb' 0 u.phase.value := by
    rw [carryBits_eq, carryBits_eq, hp] at hc
    exact msbFirst_inj hc
  have hsyms : consumeSymbols u.phase s.carry b = consumeSymbols u.phase u.carry b :=
    consumeSymbols_congr u.phase b hbits
  exact ⟨_, _, exec_consume_in_phase b hsl hp hsq, exec_consume_in_phase b hul rfl huq,
    by rw [hsyms, hcfg], rfl, rfl⟩

end Sys2Proof.Machine
end

section
/-! SUPPORT. Runs without reset, seen through the commands they carry out; and the symbols of a run of CONSUMEs
(spec/40_regrouper.md R71). -/

namespace Sys2Proof.Machine

/-! ### Runs -/

/-- What a run carries out is what its first step carries out, if anything, followed by what the rest does. -/
theorem effective_succ {n : Nat} {s t : State} (h : step s = .next t) :
    effective (n + 1) s = (effectiveNow s).toList ++ effective n t := by
  simp [effective, h]

/-- Induction along a run without reset, over the commands it carries out: every step either leaves the encoder
untouched or carries out the next command, on an empty queue. -/
theorem effective_induction {motive : List Instr → State → State → Prop}
    (done : ∀ s, motive [] s s)
    (unchanged : ∀ {s u t : State} {is : List Instr}, SameEncoder s u → motive is u t → motive is s t)
    (command : ∀ {s u t : State} {i : Instr} {is : List Instr} {rest : List Pins},
      lifeAdmits s.life i = true → s.outq = [] → exec i (s.afterEdge rest) = .next u →
      motive is u t → motive (i :: is) s t)
    {n : Nat} {s t : State} (hn : NoResetIn n s) (h : stepN n s = .next t) : motive (effective n s) s t := by
  induction n generalizing s with
  | zero =>
    obtain rfl : s = t := by simpa [stepN] using h
    exact done s
  | succ n ih =>
    obtain ⟨u, hu, ht⟩ := stepN_succ h
    obtain ⟨hn1, hnu⟩ := NoResetIn.succ hn hu
    have htail : motive (effective n u) u t := ih hnu ht
    rw [effective_succ hu]
    obtain ⟨he, hs, _⟩ | ⟨_, _, i, _, he, ha, hq, hx⟩ := step_effective_cases hn1 hu
    · rw [he]
      exact unchanged hs htail
    · rw [he]
      exact command ha hq hx htail

/-! ### The symbols of a run of CONSUMEs -/

/-- The symbols that CONSUMEs of the bytes push in a stream in phase `p` with carry `c`. -/
def consumeAllSymbols : Phase → Byte → List Byte → List Symbol
  | _, _, [] => []
  | p, c, b :: bs => consumeSymbols p c b ++ consumeAllSymbols (nextPhase p) (keptCarry p b) bs

/-- A CONSUME adds its characters at the end of those sent or queued. -/
theorem consumeCase_emitted (b : Byte) (s : State) :
    (consumeCase b s).emitted = s.emitted ++ (consumeSymbols s.phase s.carry b).map (symbolChar s.cfgLower) := by
  simp [consumeCase_eq, State.emitted]

/-- Where the commands `is` are CONSUMEs in a stream, `t` has the characters of their symbols beyond those of `s`. -/
def AddsConsumedSymbols (is : List Instr) (s t : State) : Prop :=
  ∀ bs : List Byte, is = bs.map .consume → s.life = .active →
    t.emitted = s.emitted ++ (consumeAllSymbols s.phase s.carry bs).map (symbolChar s.cfgLower)

/-- A run without reset adds the symbols of the CONSUMEs it carries out, one command at a time. -/
theorem addsConsumedSymbols_effective {n : Nat} {s t : State} (hn : NoResetIn n s) (h : stepN n s = .next t) :
    AddsConsumedSymbols (effective n s) s t := by
  refine effective_induction ?done ?unchanged ?command hn h
  case done =>
    intro s bs hbs _
    obtain rfl : bs = [] := by simpa using hbs.symm
    simp [consumeAllSymbols]
  case unchanged =>
    intro s u t is hs ih bs hbs hl
    rw [ih bs hbs (hs.life.trans hl), hs.emitted, hs.phase, hs.carry, hs.cfgLower]
  case command =>
    intro s u t i is rest _ hq hx ih bs hbs hl
    cases bs with
    | nil => simp at hbs
    | cons b bs =>
      obtain ⟨rfl, htail⟩ : i = .consume b ∧ is = bs.map .consume := by simpa using hbs
      obtain rfl : consumeCase b (s.afterEdge rest) = u := by
        simpa [exec_consume_of_empty (s := s.afterEdge rest) b hl hq] using hx
      rw [ih bs htail (by simpa [consumeCase_eq] using hl), consumeCase_emitted]
      simp [consumeCase_eq, consumeAllSymbols, State.emitted]

/-! ### How many symbols -/

/-- One symbol in phases 0 and 1, two in phases 3, 4 and 2 (R71). -/
theorem consumeSymbols_length_eq (p : Phase) (c b : Byte) :
    (consumeSymbols p c b).length = if p = .p0 ∨ p = .p1 then 1 else 2 := by
  cases p <;> rfl

/-- Five CONSUMEs go once round the phase cycle, so from any phase they push eight symbols (R71). -/
theorem consumeAllSymbols_length_of_five (p : Phase) (c : Byte) {bs : List Byte} (h : bs.length = 5) :
    (consumeAllSymbols p c bs).length = 8 := by
  match bs, h with
  | [_, _, _, _, _], _ => cases p <;> rfl

/-- Settles O20: the symbols of one phase case, and those of a run of five CONSUMEs. -/
theorem consumePushesOneOrTwoSymbols : Obligations.ConsumePushesOneOrTwoSymbols := by
  constructor
  · intro s t b hl h
    obtain ⟨hn, _⟩ | ⟨_, _, rfl⟩ := execConsume_next h
    · exact absurd hl hn
    · simp [consumeCase_eq, State.qcount, consumeSymbols_length_eq]
  · intro n s t bs hl _ hlen hn he h
    rw [addsConsumedSymbols_effective hn h bs he hl, List.length_append, List.length_map,
      consumeAllSymbols_length_of_five s.phase s.carry hlen]

end Sys2Proof.Machine
end

section
/-! SUPPORT. The symbol emitter: what its primitives append, and the alphabet of the characters sent
(spec/41_symbol_emitter.md R78, R79, R81). -/

namespace Sys2Proof.Machine

/-! ### The primitives -/

@[simp] theorem State.emit5_qcount (s : State) (v : Symbol) : (s.emit5 v).qcount = s.qcount + 1 := by
  simp [State.qcount]

@[simp] theorem State.pad_qcount (s : State) (n : Nat) : (s.pad n).qcount = s.qcount + n := by
  simp [State.qcount, State.pad_eq]

/-- Settles O42: the character of R77 at the end of the queue, `n` pad characters at its end, and the counts. -/
theorem emitterPrimitivesAppend : Obligations.EmitterPrimitivesAppend :=
  ⟨fun _ _ => rfl, fun n s => s.pad_eq n, fun v s => s.emit5_qcount v, fun n s => s.pad_qcount n⟩

/-! ### The alphabet (R81) -/

/-- Every entry of the ROM is a letter or a digit, and the letters follow the case policy (R76, R77). -/
theorem outputCode_symbolChar (lower : Bool) (v : Symbol) : outputCode lower (symbolChar lower v) = true := by
  revert lower v
  decide

theorem outputCode_padChar (lower : Bool) : outputCode lower padChar = true := by
  cases lower <;> rfl

theorem outputCodes_of_outq_nil {s : State} (hq : s.outq = []) : OutputCodes s := by
  simp [OutputCodes, hq]

/-- The characters a CONSUME adds are those of its symbols. -/
theorem consumeCase_outputCodes (b : Byte) {s : State} (h : OutputCodes s) : OutputCodes (consumeCase b s) := by
  intro c hc
  simp only [consumeCase_eq, List.mem_append, List.mem_map] at hc ⊢
  obtain hold | ⟨v, _, rfl⟩ := hc
  · exact h c hold
  · exact outputCode_symbolChar s.cfgLower v

/-- The characters a FINALIZE adds are those of its symbol, and pad characters. -/
theorem finalizeCase_outputCodes {s : State} (h : OutputCodes s) : OutputCodes (finalizeCase s) := by
  intro c hc
  simp only [finalizeCase_eq, List.mem_append, List.mem_map] at hc ⊢
  obtain (hold | ⟨v, _, rfl⟩) | hpad := hc
  · exact h c hold
  · exact outputCode_symbolChar s.cfgLower v
  · obtain ⟨_, _, rfl⟩ : s.cfgPad = true ∧ padCount s.phase ≠ 0 ∧ c = padChar := by simpa using hpad
    exact outputCode_padChar s.cfgLower

/-- A command that finds the queue empty leaves only allowed characters. The queue must be empty because an INIT may
change the case, and characters still queued would keep the old one. -/
theorem exec_outputCodes {i : Instr} {s t : State} (hq : s.outq = []) (h : exec i s = .next t) : OutputCodes t := by
  have hs : OutputCodes s := outputCodes_of_outq_nil hq
  obtain ⟨_, rfl⟩ | ⟨b, _, _, rfl, _⟩ | ⟨_, _, _, rfl⟩ | ⟨l, p, _, _, rfl⟩ := exec_cases h
  · exact hs
  · exact consumeCase_outputCodes b hs
  · exact finalizeCase_outputCodes hs
  · exact outputCodes_of_outq_nil hq

/-- The same of an accept, which changes no character when its word is illegal (R94). -/
theorem accept_outputCodes {w : CmdWord} {s t : State} (hq : s.outq = []) (h : accept w s = .next t) :
    OutputCodes t := by
  obtain ⟨_, _, rfl⟩ | ⟨_, _, hx⟩ := accept_cases h
  · exact outputCodes_of_outq_nil hq
  · exact exec_outputCodes hq hx

theorem drain_outputCodes {s : State} (h : OutputCodes s) : OutputCodes s.drain := by
  intro c hc
  rw [State.drain_outq] at hc
  rw [State.drain_cfgLower]
  exact h c (List.mem_of_mem_tail hc)

/-- Every step keeps the queue in the alphabet: a reset empties it, an accept finds it empty (R39), and a drain only
shortens it. -/
theorem step_keeps_outputCodes {s t : State} (hs : OutputCodes s) (h : step s = .next t) : OutputCodes t := by
  obtain ⟨_, rfl⟩ | ⟨e, rest, _, ⟨_, rfl⟩ | ⟨ha, hacc⟩ | ⟨_, _, rfl⟩ | ⟨_, _, _, rfl⟩⟩ := step_cases h
  · exact hs
  · exact outputCodes_of_outq_nil rfl
  · exact accept_outputCodes (accepts_outq ha) hacc
  · exact drain_outputCodes (s := s.afterEdge rest) hs
  · exact hs

/-- `out_char` is the oldest entry of the queue while `out_valid = 1` (R41). -/
theorem outChar_mem_outq {s : State} (h : s.outValid = true) : s.outChar ∈ s.outq := by
  cases hq : s.outq with
  | nil => simp [State.outValid, State.qcount, hq] at h
  | cons c rest => simp [State.outChar, hq]

/-- Settles O43: the queue is empty at reset, every step keeps its characters in the alphabet, and `out_char` is one of
them. -/
theorem outputCodesStayInTheAlphabet : Obligations.OutputCodesStayInTheAlphabet :=
  ⟨outputCodes_of_outq_nil rfl, fun _ _ => step_keeps_outputCodes, fun s hs hv => hs s.outChar (outChar_mem_outq hv)⟩

end Sys2Proof.Machine
end

section
/-! SUPPORT. FINALIZE at an accept: the next state in each phase, and the phase and the pad count after 1 to 4 bytes
(spec/42_finalizer.md R83 to R90). -/

namespace Sys2Proof.Machine

/-! ### The next state -/

/-- In a stream with the queue empty a FINALIZE completes: its symbol and its pad characters fit. -/
theorem exec_finalize_of_empty {s : State} (hl : s.life = .active) (hq : s.outq = []) :
    exec .finalize s = .next ((((finalizeCase s).setPhase .p0).setCarry 0x00#8).setLife .spent) := by
  have hlen : (finalSymbol s.phase s.carry).length + padCount s.phase ≤ Config.outqDepth :=
    finalSymbol_length s.phase s.carry
  have hfits : (finalizeCase s).qcount ≤ Config.outqDepth := by
    cases hpad : s.cfgPad with
    | true => simpa [finalizeCase_eq, State.qcount, hq, hpad] using hlen
    | false => simpa [finalizeCase_eq, State.qcount, hq, hpad] using (Nat.le_add_right _ _).trans hlen
  simp only [exec, execFinalize, hl, if_true]
  exact commit_of_fits hfits

/-- The whole next state of a FINALIZE at an accept in phase `p`. -/
theorem exec_finalize_in_phase {s : State} {p : Phase} (hl : s.life = .active) (hp : s.phase = p)
    (hq : s.outq = []) :
    exec .finalize s = .next { s with
      outq := (finalSymbol p s.carry).map (symbolChar s.cfgLower) ++
        if s.cfgPad = true then List.replicate (padCount p) padChar else []
      phase := .p0, carry := 0x00#8, life := .spent } := by
  rw [exec_finalize_of_empty hl hq, finalizeCase_eq, hp, hq, List.nil_append]
  rfl

/-- Settles O22: phase 0 has no symbol and needs no pad character, so the queue stays empty. -/
theorem finalizeInPhase0 : Obligations.FinalizeInPhase0 := by
  intro s hl hp hq
  rw [exec_finalize_in_phase hl hp hq]
  simp [finalSymbol, padCount, hq]

/-- Settles O23: the next state in phase 3. -/
theorem finalizeInPhase3 : Obligations.FinalizeInPhase3 :=
  fun _ hl hp hq => exec_finalize_in_phase hl hp hq

/-- Settles O24: the next state in phase 1. -/
theorem finalizeInPhase1 : Obligations.FinalizeInPhase1 :=
  fun _ hl hp hq => exec_finalize_in_phase hl hp hq

/-- Settles O25: the next state in phase 4. -/
theorem finalizeInPhase4 : Obligations.FinalizeInPhase4 :=
  fun _ hl hp hq => exec_finalize_in_phase hl hp hq

/-- Settles O26: the next state in phase 2. -/
theorem finalizeInPhase2 : Obligations.FinalizeInPhase2 :=
  fun _ hl hp hq => exec_finalize_in_phase hl hp hq

/-! ### The open stream a run leaves -/

/-- A stream is open in phase `p`, with the configuration its INIT wrote. -/
structure StreamOpen (p : Phase) (lower pad : Bool) (s : State) : Prop where
  life : s.life = .active
  phase : s.phase = p
  cfgLower : s.cfgLower = lower
  cfgPad : s.cfgPad = pad

/-- What leaves the encoder untouched leaves the stream open. -/
theorem StreamOpen.sameEncoder {p : Phase} {lower pad : Bool} {s t : State} (hs : StreamOpen p lower pad s)
    (h : SameEncoder s t) : StreamOpen p lower pad t where
  life := h.life.trans hs.life
  phase := h.phase.trans hs.phase
  cfgLower := h.cfgLower.trans hs.cfgLower
  cfgPad := h.cfgPad.trans hs.cfgPad

/-- A CONSUME moves an open stream to the next phase (R20). -/
theorem StreamOpen.exec_consume {p : Phase} {lower pad : Bool} {s t : State} {b : Byte}
    (hs : StreamOpen p lower pad s) (h : exec (.consume b) s = .next t) :
    StreamOpen (nextPhase p) lower pad t := by
  obtain ⟨hl, _⟩ | ⟨hl, _, rfl⟩ := execConsume_next h
  · exact absurd hs.life hl
  · rw [consumeCase_eq]
    exact ⟨hl, congrArg nextPhase hs.phase, hs.cfgLower, hs.cfgPad⟩

/-- An INIT that the life state admits opens a stream in phase 0 (R93). -/
theorem streamOpen_of_exec_init {lower pad : Bool} {s t : State} (ha : lifeAdmits s.life (.init lower pad) = true)
    (h : exec (.init lower pad) s = .next t) : StreamOpen .p0 lower pad t := by
  obtain ⟨hl, _⟩ | ⟨_, rfl⟩ := execInit_next h
  · simp [hl, lifeAdmits] at ha
  · exact ⟨rfl, rfl, rfl, rfl⟩

/-- Where the commands `is` are CONSUMEs in an open stream, `t` has it open that many phases on; where they are INIT
and CONSUMEs, `t` has the new stream open that many phases after phase 0. -/
def LeavesStreamOpen (is : List Instr) (s t : State) : Prop :=
  (∀ (p : Phase) (lower pad : Bool) (bs : List Byte), is = bs.map .consume → StreamOpen p lower pad s →
    StreamOpen (nextPhase^[bs.length] p) lower pad t) ∧
  (∀ (lower pad : Bool) (bs : List Byte), is = openStream lower pad bs →
    StreamOpen (nextPhase^[bs.length] .p0) lower pad t)

/-- A run without reset leaves the stream open that its commands open or feed, one command at a time. -/
theorem leavesStreamOpen_effective {n : Nat} {s t : State} (hn : NoResetIn n s) (h : stepN n s = .next t) :
    LeavesStreamOpen (effective n s) s t := by
  refine effective_induction ?done ?unchanged ?command hn h
  case done =>
    intro s
    refine ⟨fun p lower pad bs hbs hs => ?_, fun lower pad bs hbs => by simp [openStream] at hbs⟩
    obtain rfl : bs = [] := by simpa using hbs.symm
    exact hs
  case unchanged =>
    intro s u t is hsu ⟨hfeed, hopen⟩
    exact ⟨fun p lower pad bs hbs hs => hfeed p lower pad bs hbs (hs.sameEncoder hsu), hopen⟩
  case command =>
    intro s u t i is rest ha _ hx ⟨hfeed, _⟩
    constructor
    · intro p lower pad bs hbs hs
      cases bs with
      | nil => simp at hbs
      | cons b bs =>
        obtain ⟨rfl, htail⟩ : i = .consume b ∧ is = bs.map .consume := by simpa using hbs
        have hs' : StreamOpen p lower pad (s.afterEdge rest) := ⟨hs.life, hs.phase, hs.cfgLower, hs.cfgPad⟩
        exact hfeed (nextPhase p) lower pad bs htail (hs'.exec_consume hx)
    · intro lower pad bs hbs
      obtain ⟨rfl, htail⟩ : i = .init lower pad ∧ is = bs.map .consume := by simpa [openStream] using hbs
      exact hfeed .p0 lower pad bs htail (streamOpen_of_exec_init (s := s.afterEdge rest) ha hx)

/-! ### The pad counts -/

/-- The phases of the 40-bit cycle, in order from phase 0 (R20). -/
theorem phaseCycle_value : ∀ k < 5, [0, 3, 1, 4, 2][k]? = some (nextPhase^[k] .p0).value := by decide

/-- The pad characters each place of the 40-bit cycle needs (R90). -/
theorem phaseCycle_padCount : ∀ k < 5, [0, 6, 4, 3, 1].getD k 0 = padCount (nextPhase^[k] .p0) := by decide

/-- One to four bytes leave a partial group (R90). -/
theorem phaseCycle_ne_p0 : ∀ k < 5, 1 ≤ k → nextPhase^[k] .p0 ≠ .p0 := by decide

/-- Outside phase 0 there is one last symbol (R85 to R88). -/
theorem finalSymbol_of_ne_p0 {p : Phase} (hp : p ≠ .p0) (c : Byte) : ∃ v, finalSymbol p c = [v] := by
  cases p with
  | p0 => exact absurd rfl hp
  | p3 | p1 | p4 | p2 => exact ⟨_, rfl⟩

/-- No symbol has the pad character: the alphabet is letters and digits (R76). -/
theorem symbolChar_ne_padChar (lower : Bool) (v : Symbol) : symbolChar lower v ≠ padChar := by
  revert lower v
  decide

/-- Settles O28: the run leaves the stream open in the phase of its byte count, and there FINALIZE pushes one symbol and
that phase's pad characters. -/
theorem padCountsAreExact : Obligations.PadCountsAreExact := by
  intro n s t lower pad bs hn he h hq hpos hle
  have hlt : bs.length < 5 := Nat.lt_succ_of_le hle
  obtain ⟨hl, hp, _, hpad⟩ := (leavesStreamOpen_effective hn h).2 lower pad bs he
  obtain ⟨v, hv⟩ := finalSymbol_of_ne_p0 (phaseCycle_ne_p0 bs.length hlt hpos) t.carry
  refine ⟨by rw [hp, phaseCycle_value bs.length hlt], symbolChar t.cfgLower v, symbolChar_ne_padChar t.cfgLower v, ?_⟩
  rw [exec_finalize_in_phase hl hp hq, hv, hpad, phaseCycle_padCount bs.length hlt]
  rfl

end Sys2Proof.Machine
end

section
/-! SUPPORT. The life cycle: INIT, the illegal words, the life-cycle table, and when the phase changes
(spec/43_lifecycle_control.md R93 to R96). -/

namespace Sys2Proof.Machine

/-! ### INIT and the illegal words -/

/-- Outside a stream an INIT completes, whatever the queue holds: it pushes nothing. -/
theorem exec_init_outside_stream {s : State} (l p : Bool) (hl : s.life ≠ .active) :
    exec (.init l p) s = .next ((((s.setConfig l p).setPhase .p0).setCarry 0x00#8).setLife .active) := by
  simp [exec, execInit, hl]

/-- In a stream an INIT is refused (R100). -/
theorem exec_init_in_stream {s : State} (l p : Bool) (hl : s.life = .active) :
    exec (.init l p) s = .next (s.raiseFault .seq (encode (.init l p))) := by
  simp [exec, execInit, hl]

/-- Settles O30: the next state of INIT outside a stream and in one. -/
theorem initOpensAStream : Obligations.InitOpensAStream :=
  fun _ l p => ⟨exec_init_outside_stream l p, exec_init_in_stream l p⟩

/-- What an `Ill` fault records: its flag, and its word where no flag was set (R101). -/
theorem State.raiseFault_ill_eq (s : State) (w : CmdWord) :
    s.raiseFault .ill w = { s with
      errIll := true
      ecmd := if s.errIll = true ∨ s.errSeq = true then s.ecmd else w } := by
  cases hi : s.errIll <;> cases hs : s.errSeq <;> simp [State.raiseFault, hi, hs]

/-- Settles O33: the edge accepts its word, and the accept of an illegal word is an `Ill` fault in any life state. -/
theorem illegalWordRaisesIll : Obligations.IllegalWordRaisesIll := by
  intro s e rest r hp hr hv hq hd
  have ha : accepts e (s.afterEdge rest) = true := accepts_of_offer hr hv hq
  rw [step_edge hp, clockEdge_accept ha, accept_of_decode_error hd, State.raiseFault_ill_eq]

/-! ### The life-cycle table -/

/-- One CONSUME moves the phase on by 8 mod 5 (R20). -/
theorem nextPhase_value (p : Phase) : (nextPhase p).value = (p.value + 8) % 5 := by
  cases p <;> rfl

/-- The life states outside a stream (R25). -/
theorem Life.idle_or_spent {l : Life} (h : l ≠ .active) : l = .idle ∨ l = .spent := by
  cases l with
  | active => exact absurd rfl h
  | idle => exact .inl rfl
  | spent => exact .inr rfl

/-- Settles O37: an illegal word is an `Ill` fault whatever the life state, and each of the three commands is refused in
the life states of its `Seq` entries and carried out in the others. -/
theorem lifeFollowsTheTable : Obligations.LifeFollowsTheTable := by
  refine ⟨fun w s t h => ?_, fun s => rfl⟩
  obtain ⟨r, hd, rfl⟩ | ⟨i, hd, hx⟩ := accept_cases h
  · simp [hd]
  rw [hd]
  cases i with
  | consume b =>
    obtain ⟨hl, rfl⟩ | ⟨hl, _, rfl⟩ := execConsume_next hx
    · obtain hs | hs := Life.idle_or_spent hl <;> simp [hs]
    · simp [hl, consumeCase_eq, nextPhase_value]
  | finalize =>
    obtain ⟨hl, rfl⟩ | ⟨hl, _, rfl⟩ := execFinalize_next hx
    · obtain hs | hs := Life.idle_or_spent hl <;> simp [hs]
    · simp [hl, finalizeCase_eq]
  | init l p =>
    obtain ⟨hl, rfl⟩ | ⟨hl, rfl⟩ := execInit_next hx
    · simp [hl]
    · obtain hs | hs := Life.idle_or_spent hl <;> simp [hs]

/-! ### The phase -/

/-- A CONSUME stays in its stream. -/
@[simp] theorem consumeCase_life (b : Byte) (s : State) : (consumeCase b s).life = s.life := by
  rw [consumeCase_eq]

/-- Settles O39: a step that carries out no command keeps phase and life; a CONSUME stays in its stream,
a FINALIZE ends its stream with phase 0, and an INIT finds phase 0 (R33) and leaves it. -/
theorem phaseChangesOnlyInAStream : Obligations.PhaseChangesOnlyInAStream := by
  intro s t ⟨_, hidle, _, _⟩ hn h
  obtain ⟨he, hs, _⟩ | ⟨e, rest, i, _, he, ha, _, hx⟩ := step_effective_cases hn h
  · rw [he, hs.phase, hs.life]
    exact ⟨fun hne => absurd rfl hne, by simp, by simp, fun hl => (hidle hl).1⟩
  obtain ⟨href, _⟩ | ⟨b, rfl, hl, rfl, _⟩ | ⟨rfl, hl, _, rfl⟩ | ⟨l, p, rfl, hl, rfl⟩ := exec_cases hx
  · exact absurd ha (Bool.eq_false_iff.mp href)
  · exact ⟨fun _ => hl, by simp [he], by simp [he], fun hne => absurd ((consumeCase_life b _).trans hl) hne⟩
  · exact ⟨fun _ => hl, fun _ => rfl, fun _ _ _ => rfl, fun _ => rfl⟩
  · exact ⟨fun hne => absurd (hidle hl).1.symm hne, fun _ => rfl, fun _ _ _ => rfl, fun _ => rfl⟩

end Sys2Proof.Machine
end

section
/-! SUPPORT. The edge that does nothing, and what each edge does (spec/60_exceptions.md section 1, spec/20_memory.md
section 3). -/

namespace Sys2Proof.Machine

/-- An edge out of reset that neither accepts nor drains only passes (R42). -/
theorem clockEdge_idle {e : Pins} {s : State} (hr : e.rstN = true) (ha : accepts e s = false)
    (hd : drains e s = false) : clockEdge e s = .next s := by
  simp [clockEdge, hr, ha, hd]

/-- The queue must be empty for an accept (R39). -/
theorem not_accepts_of_outq {e : Pins} {s : State} (hq : s.outq ≠ []) : accepts e s = false :=
  Bool.eq_false_iff.mpr fun ha => hq (accepts_outq ha)

/-- The queue must hold a character for a drain (R41). -/
theorem not_drains_of_outq_nil {e : Pins} {s : State} (hq : s.outq = []) : drains e s = false :=
  Bool.eq_false_iff.mpr fun hd => drains_outq hd hq

/-- Everything a drain does; on an empty queue that is nothing (R41). -/
theorem State.drain_eq (s : State) :
    s.drain = { s with outq := s.outq.tail, sink := s.sink ++ s.outq.take 1 } := by
  obtain ⟨phase, carry, cfgLower, cfgPad, life, errIll, errSeq, ecmd, outq, pins, sink⟩ := s
  cases outq with
  | nil => simp [State.drain]
  | cons c q => rfl

/-- Settles O9: each of the five kinds of edge takes its own branch of the clock. -/
theorem everyEdgeDoesOneThing : Obligations.EveryEdgeDoesOneThing := by
  refine ⟨fun s hp => step_no_edge hp, fun s e rest hp => ?_⟩
  rw [step_edge hp]
  refine ⟨fun hr => clockEdge_reset hr, fun hr hv hq => ?accept, fun hr hq ho => ?drain,
    fun hr hv hq => ?noOffer, fun hr hq ho => ?stall⟩
  case accept => exact clockEdge_accept (accepts_of_offer hr hv hq)
  case drain =>
    have hd : drains e (s.afterEdge rest) = true := drains_of_ready hr ho hq
    rw [clockEdge_drain hd, State.drain_eq]
  case noOffer => exact clockEdge_idle hr (by simp [accepts, hv]) (not_drains_of_outq_nil hq)
  case stall => exact clockEdge_idle hr (not_accepts_of_outq hq) (by simp [drains, ho])

end Sys2Proof.Machine
end

section
/-! SUPPORT. The faults: what raising one changes, which commands raise one, and what keeps the record
(spec/60_exceptions.md R99 to R106). -/

namespace Sys2Proof.Machine

/-! ### Raising a fault -/

/-- Settles O31: with no flag set the fault's word is stored, with one set the old word stays. -/
theorem faultRecordingChangesOnlyTheRecord : Obligations.FaultRecordingChangesOnlyTheRecord := by
  refine fun w s => ⟨fun hfirst => ?first, fun hlater => ?later⟩
  case first => simp [State.raiseFault, hfirst]
  case later =>
    have hset : ¬ (s.errIll = false ∧ s.errSeq = false) := by
      rintro ⟨hi, hs⟩
      simp [hi, hs] at hlater
    simp only [State.raiseFault, if_neg hset, and_self]

/-- A fault touches only its record (R101). -/
theorem sameButRecord_raiseFault (s : State) (k : Cause) (w : CmdWord) : SameButRecord s (s.raiseFault k w) := rfl

/-- After a fault a flag is set (R101). -/
theorem raiseFault_flag_set (s : State) (k : Cause) (w : CmdWord) :
    (s.raiseFault k w).errIll = true ∨ (s.raiseFault k w).errSeq = true := by
  cases k with
  | ill => exact .inl rfl
  | seq => exact .inr rfl

/-! ### The commands a life state refuses (R100) -/

@[simp] theorem lifeAdmits_consume (l : Life) (b : Byte) : lifeAdmits l (.consume b) = decide (l = .active) := by
  cases l <;> rfl
@[simp] theorem lifeAdmits_finalize (l : Life) : lifeAdmits l .finalize = decide (l = .active) := by
  cases l <;> rfl
@[simp] theorem lifeAdmits_init (l : Life) (lower pad : Bool) :
    lifeAdmits l (.init lower pad) = decide (l ≠ .active) := by
  cases l <;> rfl

/-- A command that the life state refuses raises `Seq`, whatever the queue holds. -/
theorem exec_of_refused {i : Instr} {s : State} (h : lifeAdmits s.life i = false) :
    exec i s = .next (s.raiseFault .seq (encode i)) := by
  cases i with
  | consume b =>
    have hl : s.life ≠ .active := by simpa using h
    simp [exec, execConsume, hl]
  | finalize =>
    have hl : s.life ≠ .active := by simpa using h
    simp [exec, execFinalize, hl]
  | init lower pad => exact exec_init_in_stream lower pad (by simpa using h)

/-- The CONSUME word as R63 writes it. -/
theorem encode_consume_eq (b : Byte) : encode (.consume b) = 0x100#10 ||| b.setWidth 10 := by
  simpa [consumeWord] using consumeWord_eq (n := b.toNat) (by omega)

/-- The INIT word as R63 writes it. -/
theorem encode_init_eq (lower pad : Bool) : encode (.init lower pad) =
    0x300#10 ||| (if pad = true then 2#10 else 0#10) ||| (if lower = true then 1#10 else 0#10) := by
  cases lower <;> cases pad <;> rfl

/-- Settles O32: each of the three commands is refused there, and its word is the one R63 writes. -/
theorem commandsOutOfOrderRaiseSeq : Obligations.CommandsOutOfOrderRaiseSeq := by
  refine fun s => ⟨fun hlife => ?outside, fun hl lower pad => ?inside⟩
  case outside =>
    have hl : s.life ≠ .active := by obtain h | h := hlife <;> simp [h]
    refine ⟨fun b => ?_, exec_of_refused (by simp [hl])⟩
    rw [exec_of_refused (by simp [hl]), encode_consume_eq]
  case inside => rw [exec_init_in_stream lower pad hl, encode_init_eq]

/-! ### The frame of a command (R65, R83, R93, R101, R102) -/

/-- The fault record is untouched. -/
structure SameRecord (s t : State) : Prop where
  errIll : t.errIll = s.errIll
  errSeq : t.errSeq = s.errSeq
  ecmd : t.ecmd = s.ecmd

theorem sameRecord_consumeCase (b : Byte) (s : State) : SameRecord s (consumeCase b s) := by
  rw [consumeCase_eq]
  exact ⟨rfl, rfl, rfl⟩

theorem sameRecord_finalizeCase (s : State) : SameRecord s (finalizeCase s) := by
  rw [finalizeCase_eq]
  exact ⟨rfl, rfl, rfl⟩

/-- A command is refused with a `Seq` fault, or it is admitted and leaves the fault record alone. -/
theorem exec_record_cases {i : Instr} {s t : State} (h : exec i s = .next t) :
    (lifeAdmits s.life i = false ∧ t = s.raiseFault .seq (encode i)) ∨
    (lifeAdmits s.life i = true ∧ SameRecord s t) := by
  obtain ⟨hl, rfl⟩ | ⟨b, rfl, hl, rfl, _⟩ | ⟨rfl, hl, _, rfl⟩ | ⟨l, p, rfl, hl, rfl⟩ := exec_cases h
  · exact .inl ⟨hl, rfl⟩
  · exact .inr ⟨by simp [hl], sameRecord_consumeCase b s⟩
  · obtain ⟨hi, hs, hw⟩ := sameRecord_finalizeCase s
    exact .inr ⟨by simp [hl], hi, hs, hw⟩
  · exact .inr ⟨by simp [hl], rfl, rfl, rfl⟩

/-- Settles O34: an illegal word is an `Ill` fault; a legal one a `Seq` fault where it is refused, and no fault where
it is admitted. -/
theorem oneCausePerCommand : Obligations.OneCausePerCommand := by
  intro w s t h
  obtain ⟨r, hd, rfl⟩ | ⟨i, hd, hx⟩ := accept_cases h
  · simp [hd]
  · obtain ⟨hl, rfl⟩ | ⟨hl, hrec⟩ := exec_record_cases hx
    · simp [hd, hl]
    · simp [hd, hl, hrec.errIll, hrec.errSeq]

/-- Settles O40: the phase cases only append, INIT pushes nothing, and a refused command is a fault. -/
theorem commandsChangeNothingElse : Obligations.CommandsChangeNothingElse := by
  refine ⟨fun s t b hl h => ?consume, fun s t hl h => ?finalize, fun s t l p hl h => ?init, fun s t i hl h => ?refused⟩
  case consume =>
    obtain ⟨hn, _⟩ | ⟨_, _, rfl⟩ := execConsume_next h
    · exact absurd hl hn
    · simp [consumeCase_eq]
  case finalize =>
    obtain ⟨hn, _⟩ | ⟨_, _, rfl⟩ := execFinalize_next h
    · exact absurd hl hn
    · simp [finalizeCase_eq]
  case init =>
    obtain ⟨ha, _⟩ | ⟨_, rfl⟩ := execInit_next h
    · exact absurd ha hl
    · exact ⟨rfl, rfl, rfl, rfl, rfl, rfl⟩
  case refused =>
    obtain rfl : s.raiseFault .seq (encode i) = t := by simpa [exec_of_refused hl] using h
    exact sameButRecord_raiseFault s .seq (encode i)

/-! ### A faulting step (R106) -/

/-- A word is accepted at the next step where the next edge presents and accepts it. -/
theorem acceptedNow_eq_some {s : State} {w : CmdWord} (h : acceptedNow s = some w) :
    ∃ e rest, s.pins = e :: rest ∧ accepts e s = true ∧ e.cmdWord = w := by
  unfold acceptedNow at h
  split at h
  · simp at h
  · split at h
    · exact ⟨_, _, ‹_›, ‹_›, by simpa using h⟩
    · simp at h

/-- An accepted word that carries out no command is illegal, or its command is refused. -/
theorem illegal_or_refused {s : State} {w : CmdWord} (ha : acceptedNow s = some w) (he : effectiveNow s = none) :
    (∃ r, decode w = .error r) ∨ (∃ i, decode w = .ok i ∧ lifeAdmits s.life i = false) := by
  cases hd : decode w with
  | error r => exact .inl ⟨r, rfl⟩
  | ok i => exact .inr ⟨i, rfl, by simpa [effectiveNow, ha, hd] using he⟩

/-- Settles O35: the step answers the state after a fault, `Ill` for an illegal word and `Seq` for a refused one. -/
theorem faultsArePrecise : Obligations.FaultsArePrecise := by
  intro s w hw hnone
  obtain ⟨e, rest, hp, ha, rfl⟩ := acceptedNow_eq_some hw
  have hstep : step s = accept e.cmdWord (s.afterEdge rest) := (step_edge hp).trans (clockEdge_accept ha)
  have hfault : ∃ k w', step s = .next ((s.afterEdge rest).raiseFault k w') := by
    obtain ⟨r, hd⟩ | ⟨i, hd, hl⟩ := illegal_or_refused hw hnone
    · exact ⟨.ill, e.cmdWord, by rw [hstep, accept_of_decode_error hd]⟩
    · exact ⟨.seq, encode i, by rw [hstep, accept_of_decode hd, exec_of_refused (s := s.afterEdge rest) hl]⟩
  obtain ⟨k, w', ht⟩ := hfault
  rw [hp]
  exact ⟨_, ht, sameButRecord_raiseFault _ k w', raiseFault_flag_set _ k w'⟩

/-! ### The record is sticky (R104) -/

/-- No flag is cleared, and `ecmd` stays once a flag is set. -/
structure RecordSticks (s t : State) : Prop where
  errIll : s.errIll = true → t.errIll = true
  errSeq : s.errSeq = true → t.errSeq = true
  ecmd : s.errIll = true ∨ s.errSeq = true → t.ecmd = s.ecmd

theorem SameRecord.sticks {s t : State} (h : SameRecord s t) : RecordSticks s t where
  errIll := h.errIll.trans
  errSeq := h.errSeq.trans
  ecmd := fun _ => h.ecmd

/-- A later fault stores no word (R101). -/
theorem raiseFault_ecmd_of_flag {s : State} (k : Cause) (w : CmdWord) (h : s.errIll = true ∨ s.errSeq = true) :
    (s.raiseFault k w).ecmd = s.ecmd := by
  obtain h | h := h <;> simp [h]

theorem raiseFault_sticks (s : State) (k : Cause) (w : CmdWord) : RecordSticks s (s.raiseFault k w) where
  errIll := fun h => by cases k <;> simp [h]
  errSeq := fun h => by cases k <;> simp [h]
  ecmd := raiseFault_ecmd_of_flag k w

/-- An accept raises a fault or leaves the record alone. -/
theorem accept_record_sticks {w : CmdWord} {s t : State} (h : accept w s = .next t) : RecordSticks s t := by
  obtain ⟨_, _, rfl⟩ | ⟨i, _, hx⟩ := accept_cases h
  · exact raiseFault_sticks s .ill w
  · obtain ⟨_, rfl⟩ | ⟨_, hrec⟩ := exec_record_cases hx
    · exact raiseFault_sticks s .seq (encode i)
    · exact hrec.sticks

theorem step_record_sticks {s t : State} (hn : NoResetIn 1 s) (h : step s = .next t) : RecordSticks s t := by
  obtain ⟨_, rfl⟩ | ⟨e, rest, hp, ⟨hr, _⟩ | ⟨_, hacc⟩ | ⟨_, _, rfl⟩ | ⟨_, _, _, rfl⟩⟩ := step_cases h
  · exact SameRecord.sticks ⟨rfl, rfl, rfl⟩
  · have he : e.rstN = true := hn e (by simp [hp])
    simp [he] at hr
  · obtain ⟨hi, hs, hw⟩ := accept_record_sticks hacc
    exact ⟨hi, hs, hw⟩
  · exact SameRecord.sticks ⟨by simp, by simp, by simp⟩
  · exact SameRecord.sticks ⟨rfl, rfl, rfl⟩

/-- Settles O36: every step without reset keeps what is recorded, and of two faults of different causes each sets its
own flag and only the first stores its word. -/
theorem faultRecordIsStickyUntilReset : Obligations.FaultRecordIsStickyUntilReset := by
  refine ⟨fun s t hn h => ?step, fun s k w w' => ?twoFaults⟩
  case step =>
    obtain ⟨hi, hs, hw⟩ := step_record_sticks hn h
    exact ⟨hi, hs, hw⟩
  case twoFaults =>
    have hecmd := raiseFault_ecmd_of_flag (if k = .ill then .seq else .ill) w' (raiseFault_flag_set s k w)
    cases k with
    | ill => exact ⟨rfl, rfl, hecmd⟩
    | seq => exact ⟨rfl, rfl, hecmd⟩

end Sys2Proof.Machine
end

section
/-! SUPPORT. The reset edge, and which input ports an edge reads (spec/70_reset_and_hazards.md R116, R121). -/

namespace Sys2Proof.Machine

/-! ### The reset edge -/

/-- Settles O6: the step takes the reset branch of the clock, and both ports are off by their own definitions, one
from `rst_n`, the other from the emptied queue. -/
theorem resetEdgeRestoresEveryRegister : Obligations.ResetEdgeRestoresEveryRegister := by
  refine ⟨fun s e rest hp hr => ?edge, fun s => ?cmdReady, fun s => ?outValid⟩
  case edge => exact (step_edge hp).trans (clockEdge_reset hr)
  case cmdReady => exact Bool.false_and _
  case outValid => simp [State.outValid, State.qcount, State.reset]

/-! ### The ports an edge reads -/

theorem step_with_pins (s : State) (e : Pins) (rest : List Pins) :
    step { s with pins := e :: rest } = clockEdge e (s.afterEdge rest) :=
  step_edge rfl

theorem not_accepts_of_not_cmdReady {e : Pins} {s : State} (h : s.cmdReady e.rstN = false) : accepts e s = false := by
  simp [accepts, h]

/-- An edge that accepts nothing reads `rst_n` and `out_ready` and no other port. -/
theorem clockEdge_congr_of_not_accepts {d e : Pins} {s : State} (hr : d.rstN = e.rstN)
    (ho : d.outReady = e.outReady) (hd : accepts d s = false) (he : accepts e s = false) :
    clockEdge d s = clockEdge e s := by
  have hdrains : drains d s = drains e s := by simp [drains, hr, ho]
  cases hre : e.rstN with
  | false => rw [clockEdge_reset hre, clockEdge_reset (hr.trans hre)]
  | true =>
    cases hde : drains e s with
    | true => rw [clockEdge_drain hde, clockEdge_drain (hdrains.trans hde)]
    | false => rw [clockEdge_idle hre he hde, clockEdge_idle (hr.trans hre) hd (hdrains.trans hde)]

/-- Settles O12: neither the word nor, while `cmd_ready` is 0, the offer is among the ports a non-accepting edge reads;
an accepting edge accepts its own word. -/
theorem wordIsSampledOnlyAtTheAcceptingEdge : Obligations.WordIsSampledOnlyAtTheAcceptingEdge := by
  intro s e rest w v
  simp only [step_with_pins]
  refine ⟨fun ha => ?word, fun hready => ?offer, fun ha => clockEdge_accept ha⟩
  case word => exact clockEdge_congr_of_not_accepts rfl rfl ha ha
  case offer =>
    exact clockEdge_congr_of_not_accepts rfl rfl (not_accepts_of_not_cmdReady hready)
      (not_accepts_of_not_cmdReady hready)

end Sys2Proof.Machine
end

section
/-! SUPPORT. Decoding undoes encoding and encoding undoes decoding (spec/30_encoding.md R54 to R60). -/

namespace Sys2Proof

/-- An argument whose bits 7 to 2 are 0 is its two option bits (R58). -/
theorem initArg_eq_optionBits (arg : Byte) (h : arg.extractLsb 7 2 = 0b000000#6) :
    0b000000#6 ++ BitVec.ofBool (arg.getLsbD 1) ++ BitVec.ofBool (arg.getLsbD 0) = arg := by
  revert arg
  decide

/-- A word that decodes matches a row, and its command has the fields the row names (R59). -/
theorem decode_ok_cases {w : CmdWord} {i : Instr} (h : decode w = .ok i) :
    (opField w = 0b01#2 ∧ i = .consume (argField w)) ∨
    (opField w = 0b10#2 ∧ argField w = 0x00#8 ∧ i = .finalize) ∨
    (opField w = 0b11#2 ∧ (argField w).extractLsb 7 2 = 0b000000#6 ∧
      i = .init ((argField w).getLsbD 0) ((argField w).getLsbD 1)) := by
  by_cases hc : opField w = 0b01#2
  · rw [decode_consume hc] at h
    exact .inl ⟨hc, by simpa [eq_comm] using h⟩
  by_cases hf : opField w = 0b10#2 ∧ argField w = 0x00#8
  · rw [decode_finalize hf.1 hf.2] at h
    exact .inr (.inl ⟨hf.1, hf.2, by simpa [eq_comm] using h⟩)
  by_cases hi : opField w = 0b11#2 ∧ (argField w).extractLsb 7 2 = 0b000000#6
  · rw [decode_init hi.1 hi.2] at h
    exact .inr (.inr ⟨hi.1, hi.2, (Except.ok.inj h).symm⟩)
  · obtain ⟨r, hr⟩ := decode_error_of_no_row hc hf hi
    simp [hr] at h

/-- A legal word is the word of the command it decodes to: in each row the fields are those the encoder joins. -/
theorem encode_of_decode {w : CmdWord} {i : Instr} (h : decode w = .ok i) : encode i = w := by
  rw [← assembleFields_fields w]
  obtain ⟨hop, rfl⟩ | ⟨hop, harg, rfl⟩ | ⟨hop, harg, rfl⟩ := decode_ok_cases h
  · rw [hop, encode]
  · rw [hop, harg, encode]
  · rw [hop, encode, initArg_eq_optionBits _ harg]

theorem Instr.wf_eq_true (i : Instr) : i.wf = true := by
  cases i with
  | consume b => exact (Laws.OpcodeRow.consume b).1
  | finalize => exact Laws.OpcodeRow.finalize.1
  | init lower pad => exact (Laws.OpcodeRow.init lower pad).1

/-- Settles O2: the decoder undoes the encoder, and in each row of the opcode map the encoder undoes the decoder. -/
theorem decodeAndEncodeAgree : Obligations.DecodeAndEncodeAgree :=
  ⟨fun i _ => decode_encode i, fun _ i h => ⟨i.wf_eq_true, encode_of_decode h⟩⟩

/-- Settles O1: the decoder evaluates on eight words. -/
theorem writtenOutWordsDecode : Obligations.WrittenOutWordsDecode := by
  unfold Obligations.WrittenOutWordsDecode
  decide

end Sys2Proof
end

section
/-! SUPPORT. The effect of a command that its life state admits: a function of the command and the state, which an
accept carries out in full, since it finds the queue empty (spec/20_memory.md R39, R40). -/

namespace Sys2Proof.Machine

/-- What an admitted command does: CONSUME its phase case, FINALIZE its phase case and the end of the stream, INIT the
start of one (R65, R83, R93). -/
def effect : Instr → State → State
  | .consume b, s => consumeCase b s
  | .finalize, s => (((finalizeCase s).setPhase .p0).setCarry 0x00#8).setLife .spent
  | .init lower pad, s => (((s.setConfig lower pad).setPhase .p0).setCarry 0x00#8).setLife .active

/-- A command that answers a next state was refused, or was admitted and had its effect. -/
theorem exec_effect_cases {i : Instr} {s t : State} (h : exec i s = .next t) :
    (lifeAdmits s.life i = false ∧ t = s.raiseFault .seq (encode i)) ∨
    (lifeAdmits s.life i = true ∧ t = effect i s) := by
  obtain ⟨hl, rfl⟩ | ⟨b, rfl, hl, rfl, _⟩ | ⟨rfl, hl, _, rfl⟩ | ⟨l, p, rfl, hl, rfl⟩ := exec_cases h
  · exact .inl ⟨hl, rfl⟩
  · exact .inr ⟨by simp [hl], rfl⟩
  · exact .inr ⟨by simp [hl], rfl⟩
  · exact .inr ⟨by simp [hl], rfl⟩

/-- On an empty queue an admitted command has its effect. -/
theorem exec_of_admitted {i : Instr} {s : State} (ha : lifeAdmits s.life i = true) (hq : s.outq = []) :
    exec i s = .next (effect i s) := by
  cases i with
  | consume b => exact exec_consume_of_empty b (by simpa using ha) hq
  | finalize => exact exec_finalize_of_empty (by simpa using ha) hq
  | init lower pad => exact exec_init_outside_stream lower pad (by simpa using ha)

/-- On an empty queue every command completes (R80). -/
theorem exec_next_of_empty (i : Instr) {s : State} (hq : s.outq = []) : ∃ t, exec i s = .next t := by
  cases ha : lifeAdmits s.life i with
  | true => exact ⟨_, exec_of_admitted ha hq⟩
  | false => exact ⟨_, exec_of_refused ha⟩

/-- No effect touches the fault record. -/
theorem sameRecord_effect (i : Instr) (s : State) : SameRecord s (effect i s) := by
  cases i with
  | consume b => exact sameRecord_consumeCase b s
  | finalize =>
    obtain ⟨hi, hs, hw⟩ := sameRecord_finalizeCase s
    exact ⟨hi, hs, hw⟩
  | init lower pad => exact ⟨rfl, rfl, rfl⟩

theorem exec_consume_in_stream {s : State} (b : Byte) (hl : s.life = .active) :
    exec (.consume b) s = commit (effect (.consume b) s) := by
  simp [exec, execConsume, effect, hl]

theorem exec_finalize_in_stream {s : State} (hl : s.life = .active) :
    exec .finalize s = commit (effect .finalize s) := by
  simp [exec, execFinalize, effect, hl]

end Sys2Proof.Machine
end

section
/-! SUPPORT. The invariants of R33, and where a command completes (spec/10_state.md section 9, spec/41_symbol_emitter.md
R80). -/

namespace Sys2Proof.Machine

/-! ### How many characters a command adds -/

theorem consumeCase_qcount (b : Byte) (s : State) :
    (consumeCase b s).qcount = s.qcount + if s.phase = .p0 ∨ s.phase = .p1 then 1 else 2 := by
  simp [consumeCase_eq, State.qcount, consumeSymbols_length_eq]

/-- The number of characters a FINALIZE adds in each phase, with padding on or off (R89). -/
def finalizeCount : Phase → Bool → Nat
  | .p0, _ => 0
  | .p3, true => 7
  | .p1, true => 5
  | .p4, true => 4
  | .p2, true => 2
  | _, false => 1

/-- A FINALIZE adds its symbol, if there is one, and its pad characters, if padding is on (R84 to R88). -/
theorem finalizeCase_qcount (s : State) :
    (finalizeCase s).qcount = s.qcount + finalizeCount s.phase s.cfgPad := by
  rw [finalizeCase_eq]
  cases s.phase <;> cases s.cfgPad <;> simp [State.qcount, finalSymbol, padCount, finalizeCount]

/-! ### Where a command completes, and where it stops -/

/-- The queue check stops where the queue does not fit (log entry 4). -/
theorem commit_fault_iff {s : State} : commit s = .fault .outqOverflow ↔ Config.outqDepth < s.qcount := by
  unfold commit
  split <;> simp <;> omega

/-- INIT never stops: it is refused in a stream, and pushes nothing outside one. -/
theorem exec_init_next (lower pad : Bool) (s : State) : ∃ t, exec (.init lower pad) s = .next t := by
  by_cases hl : s.life = .active
  · exact ⟨_, exec_init_in_stream lower pad hl⟩
  · exact ⟨_, exec_init_outside_stream lower pad hl⟩

/-- Settles O48: in a stream the queue check alone decides, and a refused command or an INIT has none. -/
theorem pushPastTheQueueStops : Obligations.PushPastTheQueueStops := by
  refine ⟨fun b s hl => ?consume, fun s hl => ?finalize, exec_init_next, fun i s hl => ⟨_, exec_of_refused hl⟩⟩
  case consume =>
    rw [exec_consume_in_stream b hl, commit_fault_iff]
    exact iff_of_eq (congrArg (7 < ·) (consumeCase_qcount b s))
  case finalize =>
    rw [exec_finalize_in_stream hl, commit_fault_iff]
    exact iff_of_eq (congrArg (7 < ·) (finalizeCase_qcount s))

/-- A command leaves at most 7 entries where it finds at most 7. -/
theorem exec_keeps_queueFits {i : Instr} {s t : State} (hs : QueueFits s) (h : exec i s = .next t) : QueueFits t := by
  obtain ⟨_, rfl⟩ | ⟨_, _, _, _, hq⟩ | ⟨_, _, hq, rfl⟩ | ⟨_, _, _, _, rfl⟩ := exec_cases h
  · exact hs
  · exact hq
  · exact hq
  · exact hs

theorem queueFits_of_outq_nil {s : State} (hq : s.outq = []) : QueueFits s := by
  simp [QueueFits, State.qcount, hq]

/-- Settles O46: every command completes on an empty queue, and keeps the queue within its 7 entries. -/
theorem acceptedCommandsComplete : Obligations.AcceptedCommandsComplete := by
  intro i s hq
  obtain ⟨t, ht⟩ := exec_next_of_empty i hq
  exact ⟨t, ht, exec_keeps_queueFits (queueFits_of_outq_nil hq) ht⟩

/-- On an empty queue every accept completes, whatever its word. -/
theorem accept_next_of_empty (w : CmdWord) {s : State} (hq : s.outq = []) : ∃ t, accept w s = .next t := by
  cases hd : decode w with
  | ok i => rw [accept_of_decode hd]; exact exec_next_of_empty i hq
  | error r => exact ⟨_, accept_of_decode_error hd s⟩

/-- An edge answers a next state: only an accept could stop, and it finds the queue empty (R39). -/
theorem clockEdge_next (e : Pins) (s : State) : ∃ t, clockEdge e s = .next t := by
  cases hr : e.rstN with
  | false => exact ⟨_, clockEdge_reset hr⟩
  | true =>
    cases ha : accepts e s with
    | true => rw [clockEdge_accept ha]; exact accept_next_of_empty e.cmdWord (accepts_outq ha)
    | false =>
      cases hd : drains e s with
      | true => exact ⟨_, clockEdge_drain hd⟩
      | false => exact ⟨_, clockEdge_idle hr ha hd⟩

/-- Settles O47: with no edge to come the step holds the state, and an edge answers a next state. -/
theorem noStepStopsTheMachine : Obligations.NoStepStopsTheMachine := by
  intro s _
  cases hp : s.pins with
  | nil => exact ⟨s, step_no_edge hp⟩
  | cons e rest => rw [step_edge hp]; exact clockEdge_next e _

/-! ### The invariants -/

/-- Settles O44: every register is 0 and the queue is empty. -/
theorem invariantsHoldAtReset : Obligations.InvariantsHoldAtReset := by
  unfold Obligations.InvariantsHoldAtReset
  decide

/-- A fault keeps the invariants: it sets a flag, so `ecmd` is free, and changes nothing else they speak of. -/
theorem raiseFault_inv {s : State} (k : Cause) (w : CmdWord) (hs : Inv s) : Inv (s.raiseFault k w) := by
  obtain ⟨hcarry, hidle, hqueue, _⟩ := hs
  refine ⟨hcarry, hidle, hqueue, fun hi hq => ?_⟩
  obtain h | h := raiseFault_flag_set s k w
  · exact absurd (h.symm.trans hi) (by decide)
  · exact absurd (h.symm.trans hq) (by decide)

/-- A state with phase and carry 0 meets invariants 2 and 3 of R33, whatever its life state. -/
theorem phaseCarry_clear {s : State} (hp : s.phase = .p0) (hc : s.carry = 0x00#8) : CarryClear s ∧ IdleClear s :=
  ⟨by simp [CarryClear, hp, hc], fun _ => ⟨hp, hc⟩⟩

/-- The record invariant speaks of the fault record alone. -/
theorem SameRecord.recordClear {s t : State} (h : SameRecord s t) (hs : RecordClear s) : RecordClear t := by
  intro hi hq
  rw [h.ecmd]
  exact hs (h.errIll ▸ hi) (h.errSeq ▸ hq)

/-- Every command keeps the invariants: a CONSUME stays in its stream and keeps fewer carry bits than its new phase
counts, a FINALIZE and an INIT leave phase and carry 0. -/
theorem exec_keeps_inv {i : Instr} {s t : State} (hs : Inv s) (h : exec i s = .next t) : Inv t := by
  have ⟨_, _, hqueue, hrecord⟩ := hs
  obtain ⟨ha, rfl⟩ | ⟨ha, rfl⟩ := exec_effect_cases h
  · exact raiseFault_inv .seq (encode i) hs
  have hqueue' : QueueFits (effect i s) := exec_keeps_queueFits hqueue h
  have hrecord' : RecordClear (effect i s) := (sameRecord_effect i s).recordClear hrecord
  cases i with
  | consume b =>
    have hl : (consumeCase b s).life = .active := by simpa using ha
    refine ⟨?_, fun hne => absurd hl hne, hqueue', hrecord'⟩
    rw [CarryClear, effect, consumeCase_eq]
    exact keptCarry_lt s.phase b
  | finalize =>
    obtain ⟨hcarry, hidle⟩ := phaseCarry_clear (s := effect .finalize s) rfl rfl
    exact ⟨hcarry, hidle, hqueue', hrecord'⟩
  | init lower pad =>
    obtain ⟨hcarry, hidle⟩ := phaseCarry_clear (s := effect (.init lower pad) s) rfl rfl
    exact ⟨hcarry, hidle, hqueue', hrecord'⟩

theorem accept_keeps_inv {w : CmdWord} {s t : State} (hs : Inv s) (h : accept w s = .next t) : Inv t := by
  obtain ⟨_, _, rfl⟩ | ⟨_, _, hx⟩ := accept_cases h
  · exact raiseFault_inv .ill w hs
  · exact exec_keeps_inv hs hx

/-- A drain shortens the queue and leaves every register as it was. -/
theorem drain_inv {s : State} (hs : Inv s) : Inv s.drain := by
  obtain ⟨hcarry, hidle, hqueue, hrecord⟩ := hs
  rw [State.drain_eq]
  exact ⟨hcarry, hidle, (by simpa [State.qcount] using (Nat.sub_le _ _).trans hqueue), hrecord⟩

/-- Settles O45: a reset restores the reset values, an accept raises a fault or runs a command, a drain shortens the
queue, and any other edge changes no register. -/
theorem everyStepKeepsTheInvariants : Obligations.EveryStepKeepsTheInvariants := by
  intro s t hs h
  obtain ⟨_, rfl⟩ | ⟨e, rest, _, hedge⟩ := step_cases h
  · exact hs
  have hafter : Inv (s.afterEdge rest) := hs
  obtain ⟨_, rfl⟩ | ⟨_, hacc⟩ | ⟨_, _, rfl⟩ | ⟨_, _, _, rfl⟩ := hedge
  · exact invariantsHoldAtReset
  · exact accept_keeps_inv hafter hacc
  · exact drain_inv hafter
  · exact hafter

end Sys2Proof.Machine
end

section
/-! SUPPORT. The reset values, the status word, and an edge that accepts (spec/70_reset_and_hazards.md R117,
spec/10_state.md R30, spec/20_memory.md R42). -/

namespace Sys2Proof.Machine

/-- Settles O5: each element of the reset state is its row's value. -/
theorem resetStateHoldsTheResetValues : Obligations.ResetStateHoldsTheResetValues := by
  unfold Obligations.ResetStateHoldsTheResetValues
  decide

theorem done_iff (s : State) : s.done = true ↔ s.life = .spent ∧ s.outq = [] := by
  simp [State.done, State.qcount]

theorem qcount_ofNat_toNat {s : State} (h : QueueFits s) : (BitVec.ofNat 3 s.qcount).toNat = s.outq.length := by
  have hlt : s.outq.length < 2 ^ 3 := Nat.lt_succ_of_le h
  rw [BitVec.toNat_ofNat, State.qcount, Nat.mod_eq_of_lt hlt]

/-- A field of the left part of a concatenation lies above the right part. -/
theorem field_above {m n k lo : Nat} {x : BitVec m} {y : BitVec n} {f : BitVec k} (h : x.extractLsb' lo k = f) :
    (x ++ y).extractLsb' (lo + n) k = f := by
  rw [BitVec.extractLsb'_append_eq_of_le (Nat.le_add_left n lo), Nat.add_sub_cancel, h]

/-- The fields of the status word, from bit 0 up: peel off the fields below one, and it is the lowest left. -/
theorem status_fields (s : State) :
    s.status.extractLsb' 0 3 = s.phase.code ∧
    s.status.extractLsb' 3 2 = s.life.code ∧
    s.status.extractLsb' 5 1 = BitVec.ofBool s.cfgLower ∧
    s.status.extractLsb' 6 1 = BitVec.ofBool s.cfgPad ∧
    s.status.extractLsb' 7 1 = BitVec.ofBool s.done ∧
    s.status.extractLsb' 8 1 = BitVec.ofBool s.errIll ∧
    s.status.extractLsb' 9 1 = BitVec.ofBool s.errSeq ∧
    s.status.extractLsb' 10 2 = 0#2 ∧
    s.status.extractLsb' 12 3 = BitVec.ofNat 3 s.qcount ∧
    s.status.extractLsb' 15 1 = BitVec.ofBool false ∧
    s.status.extractLsb' 16 10 = s.ecmd ∧
    s.status.extractLsb' 26 6 = 0#6 := by
  refine ⟨?_, ?_, ?_, ?_, ?_, ?_, ?_, ?_, ?_, ?_, ?_, ?top⟩
  case top =>
    iterate 11 refine field_above ?_
    exact BitVec.extractLsb'_eq_self
  all_goals
    repeat refine field_above ?_
    exact BitVec.extractLsb'_append_eq_right

theorem getLsbD_of_field {n i : Nat} {w : BitVec n} {b : Bool} (h : w.extractLsb' i 1 = BitVec.ofBool b) :
    w.getLsbD i = b := by
  simpa using congrArg (·.getLsbD 0) h

/-- Settles O7: the fields one by one, with the queue's count read back as a number and DONE as its two conditions. -/
theorem statusWordShowsTheRegisters : Obligations.StatusWordShowsTheRegisters := by
  refine ⟨fun s hs => ?_, fun s c => rfl, by decide⟩
  obtain ⟨hphase, hlife, hlower, hpad, hdone, hill, hseq, hlow, hqcount, hmid, hecmd, hhigh⟩ := status_fields s
  refine ⟨hphase, hlife, getLsbD_of_field hlower, getLsbD_of_field hpad, ?done, getLsbD_of_field hill,
    getLsbD_of_field hseq, hlow, ?qcount, getLsbD_of_field hmid, hecmd, hhigh⟩
  case done => rw [getLsbD_of_field hdone, done_iff]
  case qcount => exact (congrArg BitVec.toNat hqcount).trans (qcount_ofNat_toNat hs)

/-- Settles O11: an accept finds the queue empty and a drain does not. -/
theorem acceptAndDrainNeverShareAnEdge : Obligations.AcceptAndDrainNeverShareAnEdge :=
  fun _ _ ⟨ha, hd⟩ => drains_outq hd (accepts_outq ha)

end Sys2Proof.Machine
end

section
/-! SUPPORT. Stalling and draining (spec/70_reset_and_hazards.md section 3). -/

namespace Sys2Proof.Machine

/-- A run's first step, where it answers a next state. -/
theorem stepN_succ_of_step {n : Nat} {s u : State} (h : step s = .next u) : stepN (n + 1) s = stepN n u := by
  simp [stepN, h]

/-- With a character queued and the sink not ready, an edge only passes. -/
theorem step_stalled {s : State} {e : Pins} {rest : List Pins} (hp : s.pins = e :: rest) (hr : e.rstN = true)
    (hq : s.outq ≠ []) (ho : e.outReady = false) : step s = .next (s.afterEdge rest) := by
  rw [step_edge hp]
  exact clockEdge_idle hr (not_accepts_of_outq hq) (by simp [drains, ho])

/-- A run in which the sink is never ready uses up its edges and changes nothing else. -/
theorem stepN_stalled (n : Nat) {s : State} (hq : s.outq ≠ []) (hn : NoResetIn n s)
    (ho : ∀ e ∈ s.pins.take n, e.outReady = false) : stepN n s = .next (s.afterEdge (s.pins.drop n)) := by
  induction n generalizing s with
  | zero => rfl
  | succ n ih =>
    cases hp : s.pins with
    | nil =>
      have hstep : step s = .next s := step_no_edge hp
      rw [stepN_succ_of_step hstep, ih hq (by simp [NoResetIn, hp]) (by simp [hp]), hp]
      simp
    | cons e rest =>
      simp only [NoResetIn, hp, List.take_succ_cons, List.forall_mem_cons] at hn ho
      rw [stepN_succ_of_step (step_stalled hp hn.1 hq ho.1), ih (s := s.afterEdge rest) hq hn.2 ho.2]
      rfl

/-- The state in which the whole queue has been delivered. -/
def State.deliver (s : State) : State := { s with outq := [], sink := s.emitted }

/-- With the sink ready at the next `qcount` edges, these edges deliver the whole queue and change nothing else. -/
theorem stepN_deliver {s : State} {edges rest : List Pins} (hp : s.pins = edges ++ rest)
    (hlen : edges.length = s.outq.length) (hn : ∀ e ∈ edges, e.rstN = true)
    (ho : ∀ e ∈ edges, e.outReady = true) : stepN edges.length s = .next (s.deliver.afterEdge rest) := by
  induction edges generalizing s with
  | nil =>
    have hq : s.outq = [] := List.length_eq_zero_iff.mp hlen.symm
    simp only [List.length_nil, stepN, State.deliver, State.emitted, State.afterEdge, hq, List.append_nil]
    rw [← hq, ← show s.pins = rest from hp]
  | cons e edges ih =>
    rw [List.forall_mem_cons] at hn ho
    obtain ⟨c, q, hq⟩ : ∃ c q, s.outq = c :: q := List.exists_cons_of_length_eq_add_one hlen.symm
    have hd : drains e (s.afterEdge (edges ++ rest)) = true := drains_of_ready hn.1 ho.1 (by simp [hq])
    have hstep : step s = .next (s.afterEdge (edges ++ rest)).drain := (step_edge hp).trans (clockEdge_drain hd)
    have hlen' : edges.length = (s.afterEdge (edges ++ rest)).drain.outq.length := by
      simpa [hq] using hlen
    rw [List.length_cons, stepN_succ_of_step hstep, ih (by simp) hlen' hn.2 ho.2]
    simp [State.deliver, State.drain_eq, State.emitted, hq]

/-- Settles O50: a run with the sink never ready, and one with it ready until the queue is delivered. -/
theorem onlyTheSinkStallsTheBlock : Obligations.OnlyTheSinkStallsTheBlock := by
  refine ⟨fun n s hq hn ho => ⟨stepN_stalled n hq hn ho, ?_⟩, fun s hlen hn ho => ⟨_, ?_, rfl, ?_⟩⟩
  · simp [State.cmdReady, State.qcount, hq]
  · have hedges : (s.pins.take s.qcount).length = s.qcount := by simpa using hlen
    have hrun := stepN_deliver (List.take_append_drop s.qcount s.pins).symm hedges hn ho
    rw [hedges] at hrun
    exact hrun
  · rfl

end Sys2Proof.Machine
end

section
/-! SUPPORT. The fault record steers nothing (spec/10_state.md R26, spec/43_lifecycle_control.md R97). -/

namespace Sys2Proof.Machine

/-- The state with another fault record. -/
def State.withRecord (ill seq : Bool) (w : CmdWord) (s : State) : State :=
  { s with errIll := ill, errSeq := seq, ecmd := w }

theorem SameButRecord.eq_withRecord {s u : State} (h : SameButRecord s u) :
    u = s.withRecord u.errIll u.errSeq u.ecmd := h

/-- A fault changes only the record, so the same fault leaves the rest alike. -/
theorem SameButRecord.raiseFault {s u : State} (h : SameButRecord s u) (k : Cause) (w : CmdWord) :
    SameButRecord (s.raiseFault k w) (u.raiseFault k w) := by
  rw [h.eq_withRecord]
  rfl

/-- No effect reads the record. -/
theorem effect_withRecord (i : Instr) (ill seq : Bool) (w : CmdWord) (s : State) :
    effect i (s.withRecord ill seq w) = (effect i s).withRecord ill seq w := by
  cases i with
  | consume b => simp [effect, consumeCase_eq, State.withRecord]
  | finalize => simp [effect, finalizeCase_eq, State.withRecord, State.setPhase, State.setCarry, State.setLife]
  | init lower pad => rfl

theorem SameButRecord.effect {s u : State} (h : SameButRecord s u) (i : Instr) :
    SameButRecord (effect i s) (effect i u) := by
  rw [h.eq_withRecord, effect_withRecord]
  rfl

section
variable {s u : State} (h : SameButRecord s u)
include h

theorem SameButRecord.life : u.life = s.life := by rw [h.eq_withRecord]; rfl
theorem SameButRecord.outq : u.outq = s.outq := by rw [h.eq_withRecord]; rfl
theorem SameButRecord.pins : u.pins = s.pins := by rw [h.eq_withRecord]; rfl

theorem SameButRecord.accepts (e : Pins) : accepts e u = accepts e s := by rw [h.eq_withRecord]; rfl
theorem SameButRecord.drains (e : Pins) : drains e u = drains e s := by rw [h.eq_withRecord]; rfl

theorem SameButRecord.afterEdge (rest : List Pins) : SameButRecord (s.afterEdge rest) (u.afterEdge rest) := by
  rw [h.eq_withRecord]; rfl
theorem SameButRecord.resetEdge : SameButRecord s.resetEdge u.resetEdge := by
  rw [h.eq_withRecord]; rfl
theorem SameButRecord.drain : SameButRecord s.drain u.drain := by
  rw [h.eq_withRecord, State.drain_eq, State.drain_eq]; rfl

end

/-- At an accept the record decides neither whether the command is admitted nor what it does. -/
theorem SameButRecord.exec {s u s' : State} {i : Instr} (h : SameButRecord s u) (hq : s.outq = [])
    (hs : exec i s = .next s') : ∃ u', exec i u = .next u' ∧ SameButRecord s' u' := by
  obtain ⟨ha, rfl⟩ | ⟨ha, rfl⟩ := exec_effect_cases hs
  · exact ⟨_, exec_of_refused (h.life ▸ ha), h.raiseFault .seq (encode i)⟩
  · exact ⟨_, exec_of_admitted (h.life ▸ ha) (h.outq.trans hq), h.effect i⟩

theorem SameButRecord.accept {s u s' : State} {w : CmdWord} (h : SameButRecord s u) (hq : s.outq = [])
    (hs : accept w s = .next s') : ∃ u', accept w u = .next u' ∧ SameButRecord s' u' := by
  obtain ⟨r, hd, rfl⟩ | ⟨i, hd, hx⟩ := accept_cases hs
  · exact ⟨_, accept_of_decode_error hd u, h.raiseFault .ill w⟩
  · rw [accept_of_decode hd]
    exact h.exec hq hx

/-- Settles O51: both states take the same branch of the clock, and each branch leaves the rest of the state alike. -/
theorem faultRecordNeverSteersTheBlock : Obligations.FaultRecordNeverSteersTheBlock := by
  intro s u s' hsu h
  have hpins : u.pins = s.pins := hsu.pins
  obtain ⟨hp, rfl⟩ | ⟨e, rest, hp, hedge⟩ := step_cases h
  · exact ⟨u, step_no_edge (hpins.trans hp), hsu⟩
  have hafter := hsu.afterEdge rest
  rw [step_edge (hpins.trans hp)]
  obtain ⟨hr, rfl⟩ | ⟨ha, hacc⟩ | ⟨_, hd, rfl⟩ | ⟨hr, ha, hd, rfl⟩ := hedge
  · exact ⟨_, clockEdge_reset hr, hafter.resetEdge⟩
  · rw [clockEdge_accept ((hafter.accepts e).trans ha)]
    exact hafter.accept (accepts_outq ha) hacc
  · exact ⟨_, clockEdge_drain ((hafter.drains e).trans hd), hafter.drain⟩
  · exact ⟨_, clockEdge_idle hr ((hafter.accepts e).trans ha) ((hafter.drains e).trans hd), hafter⟩

end Sys2Proof.Machine
end

section
/-! SUPPORT. The alphabet in arithmetic form, and the two cases (spec/41_symbol_emitter.md R76, R77, R82). -/

namespace Sys2Proof.Machine

/-- Settles O41: each clause is a check of the 32 entries of the alphabet. -/
theorem alphabetAndCaseFold : Obligations.AlphabetAndCaseFold :=
  ⟨by decide, by decide, rfl, by decide⟩

theorem upperForm_symbolChar (v : Symbol) : upperForm (symbolChar true v) = symbolChar false v := by
  revert v
  decide

theorem upperForm_padChar : upperForm padChar = padChar := by decide

/-- A code below the lower-case letters is its own upper-case form. -/
theorem upperForm_of_lt {c : Byte} (h : c.toNat < 0x61) : upperForm c = c := by
  simp [upperForm, Nat.not_le.mpr h]

theorem padFill_map_upperForm (text : List Byte) : (padFill text).map upperForm = padFill (text.map upperForm) := by
  simp [padFill, upperForm_padChar]

/-- Raising the letters of the lower-case text gives the upper-case text. -/
theorem base32_map_upperForm (pad : Bool) (bs : List Byte) :
    (base32 true pad bs).map upperForm = base32 false pad bs := by
  have hchar : upperForm ∘ symbolChar true = symbolChar false := funext upperForm_symbolChar
  cases pad <;> simp [base32, padFill_map_upperForm, hchar]

end Sys2Proof.Machine
end

section
/-! SUPPORT. Bit strings cut into 5-bit groups, and the Base32 text (spec/42_finalizer.md R91). -/

namespace Sys2Proof.Machine

/-! ### Groups -/

/-- A symbol's own bits are the group it comes from. -/
theorem groups_msbFirst_append (v : Symbol) (rest : List Bool) : groups (msbFirst v ++ rest) = v :: groups rest := by
  have hvalue : BitVec.ofNat 5 (bitsValue (msbFirst v)) = v := by
    revert v
    decide
  exact congrArg (· :: groups rest) hvalue

/-- The bits of symbols, in order, are cut back into these symbols. -/
theorem groups_flatMap_append (vs : List Symbol) (rest : List Bool) :
    groups (vs.flatMap msbFirst ++ rest) = vs ++ groups rest := by
  induction vs with
  | nil => rfl
  | cons v vs ih => rw [List.flatMap_cons, List.append_assoc, groups_msbFirst_append, ih, List.cons_append]

theorem groups_of_length_lt {bits : List Bool} (h : bits.length < 5) : groups bits = [] := by
  match bits, h with
  | [], _ | [_], _ | [_, _], _ | [_, _, _], _ | [_, _, _, _], _ => rfl

theorem flatMap_msbFirst_length (vs : List Symbol) : (vs.flatMap msbFirst).length = 5 * vs.length := by
  simp [List.length_flatMap, Nat.mul_comm]

theorem streamBits_length (bs : List Byte) : (streamBits bs).length = 8 * bs.length := by
  simp [streamBits, List.length_flatMap, Nat.mul_comm]

/-- The bits of some symbols and then fewer than 5 more are cut into these symbols and those bits left over. -/
theorem groups_of_split {bits rest : List Bool} {vs : List Symbol} (h : bits = vs.flatMap msbFirst ++ rest)
    (hlt : rest.length < 5) :
    groups bits = vs ∧ vs.length = bits.length / 5 ∧ rest.length = bits.length % 5 := by
  have hlen : bits.length = 5 * vs.length + rest.length := by rw [h, List.length_append, flatMap_msbFirst_length]
  refine ⟨?_, by omega, by omega⟩
  rw [h, groups_flatMap_append, groups_of_length_lt hlt, List.append_nil]

end Sys2Proof.Machine
end

section
/-! SUPPORT. What the commands of a stream do one after another, and the bits that CONSUMEs take in and give out
(spec/40_regrouper.md section 3). -/

namespace Sys2Proof.Machine

/-! ### Commands one after another -/

/-- The effects of commands, one after another. -/
def effects : List Instr → State → State
  | [], s => s
  | i :: is, s => effects is (effect i s)

theorem effects_append (is js : List Instr) (s : State) : effects (is ++ js) s = effects js (effects is s) := by
  induction is generalizing s with
  | nil => rfl
  | cons i is ih => exact ih (effect i s)

/-- The carry that CONSUMEs of the bytes leave in a stream in phase `p` with carry `c`. -/
def consumeAllCarry : Phase → Byte → List Byte → Byte
  | _, c, [] => c
  | p, _, b :: bs => consumeAllCarry (nextPhase p) (keptCarry p b) bs

/-- Everything that CONSUMEs of the bytes do. -/
theorem effects_consumes (bs : List Byte) (s : State) :
    effects (bs.map .consume) s = { s with
      phase := nextPhase^[bs.length] s.phase
      carry := consumeAllCarry s.phase s.carry bs
      outq := s.outq ++ (consumeAllSymbols s.phase s.carry bs).map (symbolChar s.cfgLower) } := by
  induction bs generalizing s with
  | nil => simp [effects, consumeAllCarry, consumeAllSymbols]
  | cons b bs ih =>
    rw [List.map_cons, effects, ih]
    simp [effect, consumeCase_eq, consumeAllCarry, consumeAllSymbols]

/-! ### The bits -/

/-- In every phase, the carried bits followed by the bytes' are the symbols' bits followed by the bits carried on. -/
theorem consumeAllSymbols_bits (p : Phase) (c : Byte) (bs : List Byte) :
    msbFirst (c.extractLsb' 0 p.value) ++ streamBits bs =
      (consumeAllSymbols p c bs).flatMap msbFirst ++
        msbFirst ((consumeAllCarry p c bs).extractLsb' 0 (nextPhase^[bs.length] p).value) := by
  induction bs generalizing p c with
  | nil => simp [streamBits, consumeAllSymbols, consumeAllCarry]
  | cons b bs ih =>
    have hbyte := consumeSymbols_bits p c b
    rw [← keptCarry_extractLsb'] at hbyte
    calc msbFirst (c.extractLsb' 0 p.value) ++ streamBits (b :: bs)
        = (msbFirst (c.extractLsb' 0 p.value) ++ msbFirst b) ++ streamBits bs := by simp [streamBits]
      _ = (consumeSymbols p c b).flatMap msbFirst ++
            (msbFirst ((keptCarry p b).extractLsb' 0 (nextPhase p).value) ++ streamBits bs) := by
          rw [hbyte, List.append_assoc]
      _ = _ := by rw [ih]; simp [consumeAllSymbols, consumeAllCarry]

theorem Phase.value_lt (p : Phase) : p.value < 5 := by cases p <;> decide

/-! ### The stream after INIT and CONSUMEs -/

/-- The phase of a new stream after its bytes. -/
abbrev streamPhase (bs : List Byte) : Phase := nextPhase^[bs.length] .p0

/-- The carry of a new stream after its bytes. -/
abbrev streamCarry (bs : List Byte) : Byte := consumeAllCarry .p0 0x00#8 bs

/-- The symbols that the CONSUMEs of a new stream push. -/
abbrev streamSymbols (bs : List Byte) : List Symbol := consumeAllSymbols .p0 0x00#8 bs

/-- The stream invariant of R72: the bits of a stream are those of its symbols and then the significant carry bits. -/
theorem streamBits_eq (bs : List Byte) :
    streamBits bs = (streamSymbols bs).flatMap msbFirst ++
      msbFirst ((streamCarry bs).extractLsb' 0 (streamPhase bs).value) :=
  consumeAllSymbols_bits .p0 0x00#8 bs

/-- So the symbols are the whole 5-bit groups, and the phase counts the bits left over. -/
theorem stream_groups (bs : List Byte) :
    groups (streamBits bs) = streamSymbols bs ∧ (streamSymbols bs).length = 8 * bs.length / 5 ∧
      (streamPhase bs).value = 8 * bs.length % 5 := by
  have h := groups_of_split (streamBits_eq bs) (by simpa using Phase.value_lt _)
  simpa [streamBits_length] using h

/-- Every bit of the bytes is in a symbol or carried. -/
theorem streamSymbols_length_add_phase (bs : List Byte) :
    5 * (streamSymbols bs).length + (streamPhase bs).value = 8 * bs.length := by
  obtain ⟨_, hlen, hphase⟩ := stream_groups bs
  omega

/-- Everything that INIT and CONSUMEs do. -/
theorem effects_openStream (lower pad : Bool) (bs : List Byte) (s : State) :
    effects (openStream lower pad bs) s = { s with
      cfgLower := lower, cfgPad := pad, life := .active
      phase := streamPhase bs
      carry := streamCarry bs
      outq := s.outq ++ (streamSymbols bs).map (symbolChar lower) } := by
  rw [openStream, effects, effects_consumes]
  rfl

/-! ### The text of a whole stream -/

/-- The last symbol's bits are the significant carry bits, zero-filled to a group (R84 to R88, R91). -/
theorem finalSymbol_bits (p : Phase) (c : Byte) :
    (finalSymbol p c).flatMap msbFirst =
      msbFirst (c.extractLsb' 0 p.value) ++ List.replicate ((5 - p.value) % 5) false := by
  cases p with
  | p0 => rfl
  | p3 => exact (List.append_nil _).trans (msbFirst_append (carry3 c) 0b00#2)
  | p1 => exact (List.append_nil _).trans (msbFirst_append (carry1 c) 0b0000#4)
  | p4 => exact (List.append_nil _).trans (msbFirst_append (carry4 c) 0b0#1)
  | p2 => exact (List.append_nil _).trans (msbFirst_append (carry2 c) 0b000#3)

/-- A stream's zero-filled bits are those of its symbols and its last symbol. -/
theorem zeroFill_streamBits (bs : List Byte) :
    zeroFill (streamBits bs) =
      (streamSymbols bs ++ finalSymbol (streamPhase bs) (streamCarry bs)).flatMap msbFirst := by
  obtain ⟨_, _, hphase⟩ := stream_groups bs
  rw [zeroFill, streamBits_length, ← hphase, streamBits_eq, List.append_assoc, ← finalSymbol_bits,
    List.flatMap_append]

/-- The symbols of a whole stream are the groups of its zero-filled bits. -/
theorem groups_zeroFill_streamBits (bs : List Byte) :
    groups (zeroFill (streamBits bs)) = streamSymbols bs ++ finalSymbol (streamPhase bs) (streamCarry bs) := by
  rw [zeroFill_streamBits, ← List.append_nil (List.flatMap _ _), groups_flatMap_append]
  exact List.append_nil _

/-- The pad characters FINALIZE pushes fill the text to a multiple of 8 characters (R90). -/
theorem padCount_streamPhase (bs : List Byte) :
    padCount (streamPhase bs) =
      (8 - (streamSymbols bs ++ finalSymbol (streamPhase bs) (streamCarry bs)).length % 8) % 8 := by
  have hbits := streamSymbols_length_add_phase bs
  rw [List.length_append]
  generalize streamPhase bs = p at hbits
  cases p <;> simp [Phase.value, Phase.code, padCount, finalSymbol] at hbits ⊢ <;> omega

/-- The text of a stream is what its CONSUMEs push and then what its FINALIZE pushes. -/
theorem base32_eq (lower pad : Bool) (bs : List Byte) :
    base32 lower pad bs = (streamSymbols bs).map (symbolChar lower) ++
      ((finalSymbol (streamPhase bs) (streamCarry bs)).map (symbolChar lower) ++
        if pad = true then List.replicate (padCount (streamPhase bs)) padChar else []) := by
  rw [padCount_streamPhase]
  cases pad <;> simp [base32, padFill, groups_zeroFill_streamBits]

/-- Everything that the commands of a whole stream do. -/
theorem effects_wholeStream (lower pad : Bool) (bs : List Byte) (s : State) :
    effects (wholeStream lower pad bs) s = { s with
      cfgLower := lower, cfgPad := pad, life := .spent
      phase := .p0
      carry := 0x00#8
      outq := s.outq ++ base32 lower pad bs } := by
  rw [wholeStream, effects_append, effects_openStream, base32_eq]
  simp [effects, effect, finalizeCase_eq, State.setPhase, State.setCarry, State.setLife]

/-- The number of characters of a stream of k bytes (R89). -/
theorem base32_length (lower pad : Bool) (bs : List Byte) :
    (base32 lower pad bs).length =
      if pad = true then 8 * ((bs.length + 4) / 5) else (8 * bs.length + 4) / 5 := by
  have hbits := streamSymbols_length_add_phase bs
  rw [base32_eq]
  generalize streamPhase bs = p at hbits
  cases pad <;> cases p <;> simp [Phase.value, Phase.code, padCount, finalSymbol] at hbits ⊢ <;> omega

end Sys2Proof.Machine
end

section
/-! SUPPORT. Runs without reset: what a run leaves is the effects of the commands it carries out, whatever its edges
(spec/40_regrouper.md R72, spec/42_finalizer.md R91, spec/43_lifecycle_control.md R97). -/

namespace Sys2Proof.Machine

/-! ### Runs and effects -/

theorem SameEncoder.refl (s : State) : SameEncoder s s := ⟨rfl, rfl, rfl, rfl, rfl, rfl⟩

theorem SameEncoder.trans {s t u : State} (h : SameEncoder s t) (h' : SameEncoder t u) : SameEncoder s u where
  phase := h'.phase.trans h.phase
  carry := h'.carry.trans h.carry
  cfgLower := h'.cfgLower.trans h.cfgLower
  cfgPad := h'.cfgPad.trans h.cfgPad
  life := h'.life.trans h.life
  emitted := h'.emitted.trans h.emitted

theorem finalizeCase_emitted (s : State) :
    (finalizeCase s).emitted = s.emitted ++ ((finalSymbol s.phase s.carry).map (symbolChar s.cfgLower) ++
      if s.cfgPad = true then List.replicate (padCount s.phase) padChar else []) := by
  simp [finalizeCase_eq, State.emitted]

/-- An effect reads nothing but the encoder and adds its characters at the end of those sent or queued. -/
theorem SameEncoder.effect {s u : State} (h : SameEncoder s u) (i : Instr) :
    SameEncoder (effect i s) (effect i u) := by
  obtain ⟨hphase, hcarry, hlower, hpad, hlife, hemitted⟩ := h
  cases i with
  | consume b =>
    have hem : (consumeCase b u).emitted = (consumeCase b s).emitted := by
      rw [consumeCase_emitted, consumeCase_emitted, hphase, hcarry, hlower, hemitted]
    refine ⟨?_, ?_, ?_, ?_, ?_, hem⟩ <;> simp [Machine.effect, consumeCase_eq, hphase, hlower, hpad, hlife]
  | finalize =>
    have hem : (finalizeCase u).emitted = (finalizeCase s).emitted := by
      rw [finalizeCase_emitted, finalizeCase_emitted, hphase, hcarry, hlower, hpad, hemitted]
    exact ⟨rfl, rfl, by simpa [Machine.effect] using hlower, by simpa [Machine.effect] using hpad, rfl, hem⟩
  | init lower pad => exact ⟨rfl, rfl, rfl, rfl, rfl, hemitted⟩

theorem SameEncoder.effects {s u : State} (h : SameEncoder s u) (is : List Instr) :
    SameEncoder (effects is s) (effects is u) := by
  induction is generalizing s u with
  | nil => exact h
  | cons i is ih => exact ih (h.effect i)

/-- A run without reset leaves the encoder as the effects of the commands it carries out do. -/
theorem sameEncoder_effects_of_run {n : Nat} {s t : State} (hn : NoResetIn n s) (h : stepN n s = .next t) :
    SameEncoder (effects (effective n s) s) t := by
  refine effective_induction (motive := fun is s t => SameEncoder (effects is s) t) ?done ?unchanged ?command hn h
  case done => exact SameEncoder.refl
  case unchanged =>
    intro s u t is hs ih
    exact (hs.effects is).trans ih
  case command =>
    intro s u t i is rest ha hq hx ih
    obtain rfl : effect i (s.afterEdge rest) = u := by
      simpa [exec_of_admitted (s := s.afterEdge rest) ha hq] using hx
    have hedge : SameEncoder s (s.afterEdge rest) := ⟨rfl, rfl, rfl, rfl, rfl, rfl⟩
    exact ((hedge.effect i).effects is).trans ih

end Sys2Proof.Machine
end

section
/-! SUPPORT. What every run of a stream leaves, and what it sends (spec/10_state.md R20, spec/40_regrouper.md R72, R74,
spec/42_finalizer.md R89, R91). -/

namespace Sys2Proof.Machine

/-! ### Before FINALIZE -/

section
variable {n : Nat} {s t : State} {lower pad : Bool} {bs : List Byte} (hn : NoResetIn n s)
  (he : effective n s = openStream lower pad bs) (h : stepN n s = .next t)
include hn he h

/-- A run of INIT and CONSUMEs leaves their effects in the encoder. -/
theorem sameEncoder_openStream : SameEncoder { s with
    cfgLower := lower, cfgPad := pad, life := .active
    phase := streamPhase bs
    carry := streamCarry bs
    outq := s.outq ++ (streamSymbols bs).map (symbolChar lower) } t := by
  rw [← effects_openStream lower pad bs s, ← he]
  exact sameEncoder_effects_of_run hn h

theorem emitted_of_openStream : t.emitted = s.emitted ++ (streamSymbols bs).map (symbolChar lower) := by
  rw [(sameEncoder_openStream hn he h).emitted]
  simp [State.emitted]

theorem phase_of_openStream : t.phase.value = 8 * bs.length % 5 := by
  rw [(sameEncoder_openStream hn he h).phase, (stream_groups bs).2.2]

theorem carryBits_of_openStream :
    carryBits t = msbFirst ((streamCarry bs).extractLsb' 0 (streamPhase bs).value) := by
  have hs := sameEncoder_openStream hn he h
  rw [carryBits_eq, hs.phase, hs.carry]

end

/-- Settles O52: by the stream invariant the bits are those of the symbols pushed and then the carried ones. -/
theorem openStreamEmitsTheGroupsOfItsBits : Obligations.OpenStreamEmitsTheGroupsOfItsBits := by
  intro n s t lower pad bs hn he h
  obtain ⟨hgroups, hlen, hphase⟩ := stream_groups bs
  have hbits : ((streamSymbols bs).flatMap msbFirst).length = 5 * (8 * bs.length / 5) := by
    rw [flatMap_msbFirst_length, hlen]
  have hrest : ((streamSymbols bs).flatMap msbFirst).length = 8 * bs.length - 8 * bs.length % 5 := by omega
  rw [hgroups]
  refine ⟨hlen, ?take, emitted_of_openStream hn he h, phase_of_openStream hn he h, ?drop⟩
  case take => rw [streamBits_eq, List.take_left' hbits]
  case drop => rw [carryBits_of_openStream hn he h, streamBits_eq, List.drop_left' hrest]

/-- The phases of the 40-bit cycle, in order (R20). -/
theorem cycle_eq : ∀ k < 5, [0, 3, 1, 4, 2][k]? = some (8 * k % 5) := by decide

/-- Settles O21: one CONSUME moves the phase on by 8 mod 5, and k of them from phase 0 move it to 8k mod 5. -/
theorem phaseFollowsTheCycle : Obligations.PhaseFollowsTheCycle := by
  refine ⟨fun s t b hl h => ?one, fun n s t lower pad bs hn he h => ?many⟩
  case one =>
    obtain ⟨hne, _⟩ | ⟨_, _, rfl⟩ := execConsume_next h
    · exact absurd hl hne
    · rw [consumeCase_eq, nextPhase_value]
  case many =>
    rw [cycle_eq _ (Nat.mod_lt _ (by decide)), phase_of_openStream hn he h]
    congr 1
    omega

theorem Phase.eq_p0_of_value {p : Phase} (h : p.value = 0) : p = .p0 := by
  cases p with
  | p0 => rfl
  | p3 | p1 | p4 | p2 => exact absurd h (by decide)

/-- Settles O29: a multiple of 5 bytes leaves phase 0, where FINALIZE pushes nothing. -/
theorem wholeCyclesNeedNoFinalSymbol : Obligations.WholeCyclesNeedNoFinalSymbol := by
  intro n s t lower pad bs hn he h hdvd
  have hp : t.phase = .p0 := Phase.eq_p0_of_value (by rw [phase_of_openStream hn he h]; omega)
  have hl : t.life = .active := (sameEncoder_openStream hn he h).life
  refine ⟨hp, ?length, fun hq => ?finalize⟩
  case length =>
    rw [emitted_of_openStream hn he h, List.length_append, List.length_map, (stream_groups bs).2.1, Nat.mul_comm 8]
  case finalize =>
    rw [finalizeInPhase0 t hl hp hq, ← hp]

/-! ### Whole streams -/

/-- A run of a whole stream adds its text, and leaves the stream closed. -/
theorem emitted_of_wholeStream {n : Nat} {s t : State} {lower pad : Bool} {bs : List Byte} (hn : NoResetIn n s)
    (he : effective n s = wholeStream lower pad bs) (h : stepN n s = .next t) :
    t.emitted = s.emitted ++ base32 lower pad bs ∧ t.life = .spent := by
  have hs := sameEncoder_effects_of_run hn h
  rw [he, effects_wholeStream] at hs
  refine ⟨hs.emitted.trans ?_, hs.life⟩
  simp [State.emitted]

/-- Settles O53: the run adds the text, and DONE says that the queue holds none of it. -/
theorem wholeStreamEmitsItsBase32Text : Obligations.WholeStreamEmitsItsBase32Text := by
  intro n s t lower pad bs hn he h
  obtain ⟨hemitted, hlife⟩ := emitted_of_wholeStream hn he h
  refine ⟨hemitted, hlife, fun hdone => ?_⟩
  obtain ⟨_, hq⟩ := (done_iff t).mp hdone
  rw [← hemitted, State.emitted, hq, List.append_nil]

/-- Settles O27: the counts of one FINALIZE, and the length of the text that a run adds. -/
theorem streamLengthIsFixedByTheByteCount : Obligations.StreamLengthIsFixedByTheByteCount := by
  refine ⟨fun s t hl h => ?finalize, fun n s t lower pad bs hn he h => ?stream⟩
  case finalize =>
    obtain ⟨hne, _⟩ | ⟨_, _, rfl⟩ := execFinalize_next h
    · exact absurd hl hne
    · exact finalizeCase_qcount s
  case stream =>
    rw [(emitted_of_wholeStream hn he h).1, List.length_append, base32_length]

/-- Settles O54: both runs add the text, which only the INIT word and the bytes determine. -/
theorem streamOutputDependsOnlyOnItsCommands : Obligations.StreamOutputDependsOnlyOnItsCommands :=
  fun _ _ _ _ _ _ lower pad bs hn hm hes heu hs hu =>
    ⟨base32 lower pad bs, (emitted_of_wholeStream hn hes hs).1, (emitted_of_wholeStream hm heu hu).1⟩

/-- Settles O55: the runs add the texts of the two cases; a code below the letters is its own upper-case form. -/
theorem caseChangesOnlyLetters : Obligations.CaseChangesOnlyLetters := by
  intro n m s s' u u' pad bs upperText lowerText hn hm hes heu hs hu hupper hlower
  obtain rfl : base32 false pad bs = upperText :=
    List.append_cancel_left ((emitted_of_wholeStream hn hes hs).1.symm.trans hupper)
  obtain rfl : base32 true pad bs = lowerText :=
    List.append_cancel_left ((emitted_of_wholeStream hm heu hu).1.symm.trans hlower)
  refine ⟨base32_map_upperForm pad bs, fun k c hc hlt => ?_⟩
  rw [← base32_map_upperForm, List.getElem?_map, hc, Option.map_some, upperForm_of_lt hlt]

end Sys2Proof.Machine
end

section
/-! SUPPORT. A stream at full speed: each command on an edge of its own, and then one edge per character it pushed
(spec/70_reset_and_hazards.md R127). -/

namespace Sys2Proof.Machine

/-- A run cut in two. -/
theorem stepN_add {m n : Nat} {s u : State} (h : stepN m s = .next u) : stepN (m + n) s = stepN n u := by
  induction m generalizing s with
  | zero =>
    obtain rfl : s = u := by simpa [stepN] using h
    rw [Nat.zero_add]
  | succ m ih =>
    obtain ⟨v, hv, hrest⟩ := stepN_succ h
    rw [Nat.add_right_comm, stepN_succ_of_step hv, ih hrest]

/-- An edge that offers an admitted command to an empty queue carries it out. -/
theorem step_offer {s : State} {i : Instr} {rest : List Pins} (ha : lifeAdmits s.life i = true) (hq : s.outq = [])
    (hp : s.pins = offer i :: rest) : step s = .next (effect i (s.afterEdge rest)) := by
  rw [stepRunsTheDecodedCommand s (offer i) rest i hp rfl rfl hq (decode_encode i)]
  exact exec_of_admitted (s := s.afterEdge rest) ha hq

/-- The edges to come are no concern of a command. -/
theorem effect_afterEdge (i : Instr) (s : State) (rest : List Pins) :
    effect i (s.afterEdge rest) = (effect i s).afterEdge rest := by
  cases i with
  | consume b => simp [effect, consumeCase_eq]
  | finalize => simp [effect, finalizeCase_eq, State.setPhase, State.setCarry, State.setLife]
  | init lower pad => rfl

theorem effects_afterEdge (is : List Instr) (s : State) (rest : List Pins) :
    effects is (s.afterEdge rest) = (effects is s).afterEdge rest := by
  induction is generalizing s with
  | nil => rfl
  | cons i is ih => rw [effects, effect_afterEdge, ih, effects]

theorem deliver_of_outq_nil {s : State} (hq : s.outq = []) : s.deliver = s := by
  rw [State.deliver, State.emitted, hq, List.append_nil, ← hq]

/-- Delivering the queue before a command as well as after it changes nothing. -/
theorem deliver_effect_deliver (i : Instr) (s : State) : (effect i s.deliver).deliver = (effect i s).deliver := by
  cases i with
  | consume b => simp [effect, consumeCase_eq, State.deliver, State.emitted]
  | finalize =>
    simp [effect, finalizeCase_eq, State.deliver, State.emitted, State.setPhase, State.setCarry, State.setLife]
  | init lower pad =>
    simp [effect, State.deliver, State.emitted, State.setPhase, State.setCarry, State.setLife, State.setConfig]

theorem deliver_effects_deliver (is : List Instr) (s : State) :
    (effects is s.deliver).deliver = (effects is s).deliver := by
  induction is generalizing s with
  | nil => simp [effects, State.deliver, State.emitted]
  | cons i is ih => rw [effects, ← ih, deliver_effect_deliver, ih, effects]

/-! ### Edges that carry out commands and deliver their characters -/

/-- From `s` the edges carry out the commands `is` and deliver all their characters. -/
def CarriesOut (edges : List Pins) (is : List Instr) (s : State) : Prop :=
  ∀ rest : List Pins, s.pins = edges ++ rest →
    stepN edges.length s = .next ((effects is s).deliver.afterEdge rest)

theorem CarriesOut.nil {s : State} (hq : s.outq = []) : CarriesOut [] [] s := by
  intro rest hp
  rw [effects, deliver_of_outq_nil hq, ← show s.pins = rest from hp]
  rfl

theorem CarriesOut.append {edges edges' : List Pins} {is js : List Instr} {s : State} (h : CarriesOut edges is s)
    (h' : ∀ rest : List Pins, CarriesOut edges' js ((effects is s).deliver.afterEdge rest)) :
    CarriesOut (edges ++ edges') (is ++ js) s := by
  intro rest hp
  rw [List.length_append, stepN_add (h (edges' ++ rest) (by rw [hp, List.append_assoc])), h' _ rest rfl,
    effects_append, effects_afterEdge, ← deliver_effects_deliver js (effects is s)]
  rfl

/-- An admitted command is offered to an empty queue, and then there is an edge for each character it pushes. -/
theorem carriesOut_offer {s : State} {i : Instr} {k : Nat} (ha : lifeAdmits s.life i = true) (hq : s.outq = [])
    (hk : (effect i s).outq.length = k) : CarriesOut (offer i :: drainEdges k) [i] s := by
  intro rest hp
  have hedges : (drainEdges k).length = (effect i s).outq.length := List.length_replicate.trans hk.symm
  have hready : ∀ e ∈ drainEdges k, e = offerEdge none := fun e he => List.eq_of_mem_replicate he
  rw [List.length_cons, stepN_succ_of_step (step_offer ha hq hp), effect_afterEdge]
  exact stepN_deliver (s := (effect i s).afterEdge (drainEdges k ++ rest)) rfl hedges
    (fun e he => by rw [hready e he]; rfl) (fun e he => by rw [hready e he]; rfl)

/-! ### A whole stream -/

/-- Each place of the 40-bit cycle has the phase of its remainder mod 5 (R20). -/
theorem nextPhase_iterate_mod (k : Nat) : nextPhase^[k % 5] .p0 = nextPhase^[k] .p0 :=
  (show Function.IsPeriodicPt nextPhase 5 .p0 from rfl).iterate_mod_apply k

theorem cycleCount_of_lt : ∀ k < 5,
    cycleCount k = if nextPhase^[k] .p0 = .p0 ∨ nextPhase^[k] .p0 = .p1 then 1 else 2 := by decide

/-- The count of a place of the cycle is the number of symbols its phase pushes (R71). -/
theorem cycleCount_eq (k : Nat) (c b : Byte) :
    cycleCount k = (consumeSymbols (nextPhase^[k] .p0) c b).length := by
  have hmod : cycleCount (k % 5) = cycleCount k := by rw [cycleCount, Nat.mod_mod, cycleCount]
  rw [consumeSymbols_length_eq, ← hmod, cycleCount_of_lt _ (Nat.mod_lt _ (by decide)), nextPhase_iterate_mod]

theorem consumeEdges_length (k : Nat) (c : Byte) (bs : List Byte) :
    (consumeEdges k bs).length = bs.length + (consumeAllSymbols (nextPhase^[k] .p0) c bs).length := by
  induction bs generalizing k c with
  | nil => rfl
  | cons b bs ih =>
    have htail := ih (k + 1) (keptCarry (nextPhase^[k] .p0) b)
    rw [Function.iterate_succ_apply'] at htail
    simp [consumeEdges, drainEdges, consumeAllSymbols, htail, cycleCount_eq k c b]
    omega

/-- In a stream whose place in the 40-bit cycle is `k`, the edges that feed the bytes carry out their CONSUMEs. -/
theorem carriesOut_consumeEdges (k : Nat) (bs : List Byte) {s : State} (hl : s.life = .active) (hq : s.outq = [])
    (hphase : s.phase = nextPhase^[k] .p0) : CarriesOut (consumeEdges k bs) (bs.map .consume) s := by
  induction bs generalizing k s with
  | nil => exact CarriesOut.nil hq
  | cons b bs ih =>
    have hcount : (effect (.consume b) s).outq.length = cycleCount k := by
      simp [effect, consumeCase_eq, hq, hphase, cycleCount_eq k s.carry b]
    refine (carriesOut_offer (by simpa using hl) hq hcount).append fun rest => ih (k + 1) ?life rfl ?phase
    case life => simpa [effects, effect, State.deliver] using hl
    case phase => simp [effects, effect, State.deliver, consumeCase_eq, hphase, Function.iterate_succ_apply']

/-- What FINALIZE pushes is the text beyond the symbols of the CONSUMEs. -/
theorem finalize_outq_length {s : State} {lower pad : Bool} {bs : List Byte} (hq : s.outq = []) (hpad : s.cfgPad = pad)
    (hphase : s.phase = streamPhase bs) (hcarry : s.carry = streamCarry bs) :
    (effect .finalize s).outq.length = (base32 lower pad bs).length - 8 * bs.length / 5 := by
  rw [← (stream_groups bs).2.1, base32_eq]
  cases pad <;> simp [effect, finalizeCase_eq, hq, hpad, hphase, hcarry]

/-- From any state outside a stream with the queue empty, the edges of R127 carry out the stream. -/
theorem carriesOut_streamEdges (lower pad : Bool) (bs : List Byte) {s : State} (hl : s.life ≠ .active)
    (hq : s.outq = []) : CarriesOut (streamEdges lower pad bs) (wholeStream lower pad bs) s := by
  have hinit : CarriesOut [offer (.init lower pad)] [.init lower pad] s :=
    carriesOut_offer (k := 0) (by simpa using hl) hq (by simpa [effect] using hq)
  have hopen : CarriesOut (offer (.init lower pad) :: consumeEdges 0 bs) (openStream lower pad bs) s :=
    hinit.append fun rest => carriesOut_consumeEdges 0 bs rfl rfl rfl
  refine hopen.append fun rest => ?_
  rw [effects_openStream]
  exact carriesOut_offer rfl rfl (finalize_outq_length rfl rfl rfl rfl)

theorem streamEdges_length (lower pad : Bool) (bs : List Byte) :
    (streamEdges lower pad bs).length = (bs.length + 2) + (base32 lower pad bs).length := by
  have hconsumes : (consumeEdges 0 bs).length = bs.length + (streamSymbols bs).length :=
    consumeEdges_length 0 0x00#8 bs
  have htext := congrArg List.length (base32_eq lower pad bs)
  have hsymbols := (stream_groups bs).2.1
  simp only [List.length_append, List.length_map] at htext
  simp only [streamEdges, drainEdges, List.length_append, List.length_cons, List.length_replicate]
  omega

/-- Settles O56: the stated edges carry out the stream, and it leaves its text in the sink. -/
theorem fullSpeedStreamTakesTheStatedEdges : Obligations.FullSpeedStreamTakesTheStatedEdges := by
  intro s lower pad bs rest hl hq hp
  refine ⟨streamEdges_length lower pad bs, ?_⟩
  rw [carriesOut_streamEdges lower pad bs hl hq rest hp, effects_wholeStream]
  simp [State.deliver, State.emitted, hq]

end Sys2Proof.Machine
end
